-- ==== Sys2Proof/Word.lean ====
section
/-! DEFINITION. The word types: IFSR and R[t] are 32 bits wide (10_state.md R20, R38). -/

namespace Sys2Proof

/-- A 32-bit value: an IFSR cell, R[t], the pc, an instruction word (R7, R20, R38). -/
abbrev Word := BitVec 32

/-- A 16-bit halfword of a T32 instruction (30_encoding.md R63). -/
abbrev Half := BitVec 16

/-- A byte of the instruction memory. -/
abbrev Byte := BitVec 8

end Sys2Proof
end

