-- ==== Sys2Proof/Config.lean ====
section
/-! DEFINITION. What an implementation fixes (00_scope.md R6, the rows marked configuration) and the free values:
constants with no body, of which nothing can be proved. -/

namespace Sys2Proof

/-- The two translation table formats, which select layout A (Short) or layout B (Long) (10_state.md R24). -/
inductive Fmt where
  | short
  | long
  deriving DecidableEq, Repr, Inhabited

/-- `ExTClass`: does the implementation classify External aborts in ExT (R6, R30, R112). -/
inductive ExTClass where
  | unclassified
  | classified
  deriving DecidableEq, Repr, Inhabited

/-- `FetchByteOrder` (20_memory.md R52). -/
inductive ByteOrder where
  | little
  | big
  deriving DecidableEq, Repr, Inhabited

/-- The implementation's parameters, one field per configuration row of 00_scope.md R6. `wiredShort` and `wiredLong`
are the RES0 bits the implementation hardwires in each format; `hardZero` (Machine/Layout.lean) admits of them only
what the law of 10_state.md R28 allows (log 14). -/
structure Config where
  haveEL3 : Bool
  el3A32 : Bool
  el2A32 : Bool
  haveRAS : Bool
  haveLockdown : Bool
  extClass : ExTClass
  wiredShort : Word
  wiredLong : Word
  fetchByteOrder : ByteOrder
  deriving DecidableEq, Repr, Inhabited

/-- The implementation the machine has at reset: open, no value known (log 6). DESIGN CHOICE, safe. -/
opaque Config.implementation : Config

/-- `UNKNOWN_32` (00_scope.md R8, R10, D5): the n-th draw of a 32-bit value under no law (log 8). DESIGN CHOICE, safe. -/
opaque Config.unknown32 : Nat → BitVec 32

/-- At the n-th draw: does an accessor that fails its condition and whose access check does not pass take the
exception (true) or act as a no-operation (false) (30_encoding.md R64, D3; log 9)? DESIGN CHOICE, safe. -/
opaque Config.failedConditionTakesException : Nat → Bool

end Sys2Proof
end

