-- ==== Sys2Proof/Syntax.lean ====
section
/-! DEFINITION. The instructions: the four rows of spec/opcode_table.json (30_encoding.md R66). -/

namespace Sys2Proof

/-- The two instruction sets the accessors exist in (R66, R68). -/
inductive ISet where
  | a32
  | t32
  deriving DecidableEq, Repr, Inhabited

/-- The System register encoding tuple (20_memory.md R51, 30_encoding.md R60), widths by the digits the source prints. -/
structure SysRegTuple where
  coproc : BitVec 4
  opc1 : BitVec 3
  crn : BitVec 4
  crm : BitVec 4
  opc2 : BitVec 3
  deriving DecidableEq, Repr

/-- One constructor per row of the opcode table. `cond` is the 4-bit condition of an A32 word (R64), `rt` the 4-bit
register field (R63, R65). -/
inductive Instr where
  /-- `MRC p15, 0, <Rt>, c5, c0, 1`, A32 (R62, R80). -/
  | mrcA32 (cond rt : BitVec 4)
  /-- `MCR p15, 0, <Rt>, c5, c0, 1`, A32 (R62, R81). -/
  | mcrA32 (cond rt : BitVec 4)
  /-- `MRC p15, 0, <Rt>, c5, c0, 1`, T32 (R63, R80). -/
  | mrcT32 (rt : BitVec 4)
  /-- `MCR p15, 0, <Rt>, c5, c0, 1`, T32 (R63, R81). -/
  | mcrT32 (rt : BitVec 4)
  deriving DecidableEq, Repr

/-- The instruction set an instruction belongs to. -/
def Instr.iset : Instr → ISet
  | .mrcA32 _ _ => .a32
  | .mcrA32 _ _ => .a32
  | .mrcT32 _ => .t32
  | .mcrT32 _ => .t32

/-- The register field `Rt` (R63). -/
def Instr.rt : Instr → BitVec 4
  | .mrcA32 _ rt => rt
  | .mcrA32 _ rt => rt
  | .mrcT32 rt => rt
  | .mcrT32 rt => rt

/-- The condition field of an A32 instruction; a T32 accessor has none, its word carries 0b1110 there (R63, R64). -/
def Instr.cond : Instr → BitVec 4
  | .mrcA32 cond _ => cond
  | .mcrA32 cond _ => cond
  | .mrcT32 _ => 0b1110#4
  | .mcrT32 _ => 0b1110#4

end Sys2Proof
end

