-- ==== Sys2Proof/WellFormed.lean ====
section
/-! DEFINITION. Which instructions the encoding admits: `cond` other than 0b1111 (30_encoding.md R62, R67) and `Rt` other
than 15 (R63, D2). -/

namespace Sys2Proof

/-- `t` from 0 to 14 is admitted (R63). -/
def rtAdmitted (rt : BitVec 4) : Bool := rt != 15#4

/-- Any condition of 0b0000 to 0b1110; 0b1111 is a different instruction (R62, R67). -/
def condAdmitted (cond : BitVec 4) : Bool := cond != 0b1111#4

/-- The well-formed instructions: those that a row of the opcode table stands for and the decoder admits. -/
def Instr.wf : Instr → Bool
  | .mrcA32 cond rt => condAdmitted cond && rtAdmitted rt
  | .mcrA32 cond rt => condAdmitted cond && rtAdmitted rt
  | .mrcT32 rt => rtAdmitted rt
  | .mcrT32 rt => rtAdmitted rt

end Sys2Proof
end

