-- ==== Sys2Proof/Decode.lean ====
section
/-! DEFINITION. The decoder (total, rejecting by name) and the encoder of the two accessors in both instruction sets
(30_encoding.md R60 to R69). The tuple's values are the source's; the places of the fields in the word are
PRESUMED, the spec's general knowledge GK7 and GK8 (log 17). -/

namespace Sys2Proof

/-- Why bytes or a word are not an accessor (R67). -/
inductive DecodeError where
  /-- Fewer than four bytes are left. -/
  | truncated
  /-- The word matches no row of the opcode table: outside the spec, says nothing of the chip (R67 a). -/
  | notAnAccessor
  /-- An A32 word with a row's bits but cond 0b1111: a different instruction (R67 c). -/
  | conditionUnallocated
  /-- A row's word with Rt = 15 (R67 b, R63, D2). -/
  | rtFifteen
  /-- The first T32 halfword starts a 16-bit instruction (R68): no accessor. -/
  | narrowT32
  deriving DecidableEq, Repr

/-! ## Fields of the instruction word (R62; for T32 of the pair read as hw1 : hw2, R63) -/

def condField (w : Word) : BitVec 4 := w.extractLsb' 28 4
def majorField (w : Word) : BitVec 4 := w.extractLsb' 24 4
def opc1Field (w : Word) : BitVec 3 := w.extractLsb' 21 3
def lField (w : Word) : BitVec 1 := w.extractLsb' 20 1
def crnField (w : Word) : BitVec 4 := w.extractLsb' 16 4
def rtField (w : Word) : BitVec 4 := w.extractLsb' 12 4
def coprocField (w : Word) : BitVec 4 := w.extractLsb' 8 4
def opc2Field (w : Word) : BitVec 3 := w.extractLsb' 5 3
def bit4Field (w : Word) : BitVec 1 := w.extractLsb' 4 1
def crmField (w : Word) : BitVec 4 := w.extractLsb' 0 4

/-- IFSR's tuple (R60). -/
def ifsrTuple : SysRegTuple :=
  { coproc := 0b1111#4, opc1 := 0b000#3, crn := 0b0101#4, crm := 0b0000#4, opc2 := 0b001#3 }

/-- The tuple a word carries. -/
def tupleOf (w : Word) : SysRegTuple :=
  { coproc := coprocField w, opc1 := opc1Field w, crn := crnField w, crm := crmField w, opc2 := opc2Field w }

/-- The word is an MRC or MCR of IFSR but for its top four bits: the fixed bits [27:24] = 0b1110 and [4] = 1, and
IFSR's whole tuple, all five parts compared (R60, R62, R63). -/
def carriesIfsr (w : Word) : Bool :=
  majorField w == 0b1110#4 && bit4Field w == 1#1 && tupleOf w == ifsrTuple

/-! ## The decoder -/

/-- An A32 word (R62, R66, R67). -/
def decodeA32 (w : Word) : Except DecodeError Instr :=
  if carriesIfsr w then
    if condField w = 0b1111#4 then .error .conditionUnallocated
    else if rtField w = 15#4 then .error .rtFifteen
    else if lField w = 1#1 then .ok (.mrcA32 (condField w) (rtField w))
    else .ok (.mcrA32 (condField w) (rtField w))
  else .error .notAnAccessor

/-- Does a first halfword start a 32-bit T32 instruction: bits [15:11] are 0b11101, 0b11110 or 0b11111 (R68). -/
def t32IsWide (hw1 : Half) : Bool :=
  let top := hw1.extractLsb' 11 5
  top == 0b11101#5 || top == 0b11110#5 || top == 0b11111#5

/-- A T32 pair read as hw1 : hw2 (R63, R66, R67, R68). -/
def decodeT32 (w : Word) : Except DecodeError Instr :=
  if t32IsWide (w.extractLsb' 16 16) then
    if carriesIfsr w && condField w == 0b1110#4 then
      if rtField w = 15#4 then .error .rtFifteen
      else if lField w = 1#1 then .ok (.mrcT32 (rtField w))
      else .ok (.mcrT32 (rtField w))
    else .error .notAnAccessor
  else .error .narrowT32

/-- A 32-bit value in the current instruction set (R66). -/
def decodeWord : ISet → Word → Except DecodeError Instr
  | .a32, w => decodeA32 w
  | .t32, w => decodeT32 w

/-! ## Bytes: an A32 instruction is one word, a T32 accessor two halfwords, hw1 at the lower address; each in
`FetchByteOrder` (R52, R63) -/

/-- Byte n of a word, byte 0 the least significant. -/
def byteOf (w : Word) (n : Nat) : Byte := w.extractLsb' (8 * n) 8

/-- The four bytes of an instruction as they lie in memory, lowest address first. -/
def wordBytes : ISet → ByteOrder → Word → List Byte
  | .a32, .little, w => [byteOf w 0, byteOf w 1, byteOf w 2, byteOf w 3]
  | .a32, .big, w => [byteOf w 3, byteOf w 2, byteOf w 1, byteOf w 0]
  | .t32, .little, w => [byteOf w 2, byteOf w 3, byteOf w 0, byteOf w 1]
  | .t32, .big, w => [byteOf w 3, byteOf w 2, byteOf w 1, byteOf w 0]

/-- The value of four bytes as they lie in memory, lowest address first: the inverse of `wordBytes`. -/
def bytesWord (iset : ISet) (order : ByteOrder) (b0 b1 b2 b3 : Byte) : Word :=
  match iset, order with
  | .a32, .little => b3 ++ b2 ++ b1 ++ b0
  | .a32, .big => b0 ++ b1 ++ b2 ++ b3
  | .t32, .little => b1 ++ b0 ++ b3 ++ b2
  | .t32, .big => b0 ++ b1 ++ b2 ++ b3

/-- The decoder on bytes: an instruction and the bytes after it, or a rejection by name. -/
def decode (iset : ISet) (order : ByteOrder) : List Byte → Except DecodeError (Instr × List Byte)
  | b0 :: b1 :: b2 :: b3 :: rest =>
    match decodeWord iset (bytesWord iset order b0 b1 b2 b3) with
    | .ok i => .ok (i, rest)
    | .error e => .error e
  | _ => .error .truncated

/-! ## The encoder -/

/-- The word with the given top four bits, L and Rt, and IFSR's tuple (R62, R63). -/
def accessorWord (cond : BitVec 4) (l : BitVec 1) (rt : BitVec 4) : Word :=
  cond ++ 0b1110#4 ++ ifsrTuple.opc1 ++ l ++ ifsrTuple.crn ++ rt ++ ifsrTuple.coproc ++ ifsrTuple.opc2 ++ 1#1 ++ ifsrTuple.crm

/-- The A32 word, or hw1 : hw2 of the T32 pair (R62, R63). -/
def encodeWord : Instr → Word
  | .mrcA32 cond rt => accessorWord cond 1#1 rt
  | .mcrA32 cond rt => accessorWord cond 0#1 rt
  | .mrcT32 rt => accessorWord 0b1110#4 1#1 rt
  | .mcrT32 rt => accessorWord 0b1110#4 0#1 rt

/-- An instruction's bytes as they lie in memory. -/
def encode (order : ByteOrder) (i : Instr) : List Byte := wordBytes i.iset order (encodeWord i)

/-! ## The opcode table's numbering -/

/-- An instruction's 32 bits from the table's number: `nbits` bits of `w`, every bit above zero. -/
def tableWord (nbits w : Nat) : Word := BitVec.ofNat 32 (w % 2 ^ nbits)

/-- The instruction set a table word is read in. The table's number does not carry the set, and a T32 row is the A32
row with 0b1110 in place of cond (R63): a word that matches a T32 row in full is read as that row's, any other as A32
(log 18). DESIGN CHOICE, safe. -/
def tableISet (w : Word) : ISet :=
  if carriesIfsr w && condField w == 0b1110#4 then .t32 else .a32

/-- The instruction the decoder reads from a table word, laid out as the hardware stores it. -/
def decodeTableWord (nbits w : Nat) : Option Instr :=
  let v := tableWord nbits w
  match decode (tableISet v) .little (wordBytes (tableISet v) .little v) with
  | .ok (i, _) => some i
  | .error _ => none

/-! ## Assembler text (R69) -/

/-- The assembler's suffix for a condition the spec names (95_test_vectors.md section 6: EQ, NE, GE; "always" is written
with none); the other conditions are not named in the spec (log 34). -/
def condSuffix (cond : BitVec 4) : Option String :=
  match cond with
  | 0b0000#4 => some "EQ"
  | 0b0001#4 => some "NE"
  | 0b1010#4 => some "GE"
  | 0b1110#4 => some ""
  | _ => none

/-- The line `MRC<c> p15, 0, <Rt>, c5, c0, 1` of an instruction whose condition has a name (R69). -/
def assemblyLine (name : String) (cond rt : BitVec 4) : Option String :=
  (condSuffix cond).map fun c => name ++ c ++ " p15, 0, r" ++ toString rt.toNat ++ ", c5, c0, 1"

/-- The assembler text of an accessor (R69). -/
def Instr.assembly : Instr → Option String
  | .mrcA32 cond rt => assemblyLine "MRC" cond rt
  | .mcrA32 cond rt => assemblyLine "MCR" cond rt
  | .mrcT32 rt => assemblyLine "MRC" 0b1110#4 rt
  | .mcrT32 rt => assemblyLine "MCR" 0b1110#4 rt

end Sys2Proof
end

