-- ==== Sys2Proof/Machine/State.lean ====
section
/-! DEFINITION. The state of the machine, its stops, and the state after reset (10_state.md, 70_reset_and_hazards.md). -/

namespace Sys2Proof.Machine

/-- The values of `PSTATE.EL` (10_state.md R37). -/
inductive EL where
  | el0
  | el1
  | el2
  | el3
  deriving DecidableEq, Repr, Inhabited

/-- The names of the IFSR storage: `IFSR`, `IFSR_S`, `IFSR_NS` (R21, R22). -/
inductive CellName where
  | single
  | secure
  | nonsecure
  deriving DecidableEq, Repr, Inhabited

/-- One 32-bit value per cell name. The three IFSR names never coexist in one run (R22); the model carries all three and
the ones a configuration does not have stay unobserved. -/
structure Bank where
  single : Word
  secure : Word
  nonsecure : Word
  deriving DecidableEq, Repr, Inhabited

/-- The kind of an access (40_sysreg_access.md R86). -/
inductive AccessKind where
  | read
  | write
  deriving DecidableEq, Repr, Inhabited

/-- A lookup level that both layouts know (60_exceptions.md R104, R114). -/
inductive DomainLevel where
  | one
  | two
  deriving DecidableEq, Repr, Inhabited

/-- A translation table lookup level (R104, R114). -/
inductive Level where
  | one
  | two
  | three
  deriving DecidableEq, Repr, Inhabited

/-- The causes of an instruction fault, one type for both layouts (R104). `addressSizeBase` is STATUS 0b000000, whose
meaning the source lost and on which nothing rests (R102, log 28). -/
inductive Cause where
  | addressSizeBase
  | addressSize (n : Level)
  | translation (n : Level)
  | accessFlag (n : Level)
  | domain (n : DomainLevel)
  | permission (n : Level)
  | syncExternal
  | syncExternalWalk (n : Level)
  | syncParity
  | syncParityWalk (n : Level)
  | pcAlignment
  | debug
  | tlbConflict
  | lockdown
  deriving DecidableEq, Repr, Inhabited

/-- The inputs of `ReportInstructionFault` (R110); the format is the current one, `Context.fmt` (log 12). -/
structure FaultReport where
  /-- Which fault (R123). -/
  cause : Cause
  /-- `fnv_in` (R111, D26). -/
  fnvIn : BitVec 1
  /-- `ext_in` (R112, D12). -/
  extIn : BitVec 1
  /-- `c`, the target cell (R113, D10). -/
  cell : CellName
  /-- `fault_address` (R41, D18). -/
  faultAddress : Word
  deriving DecidableEq, Repr, Inhabited

/-- The context inputs: what the rules read, never write, and may find changed at the next step (00_scope.md R6,
10_state.md R37). -/
structure Context where
  /-- `PSTATE.EL`. -/
  el : EL
  /-- `EL2Enabled()`. -/
  el2Enabled : Bool
  /-- `SCR.NS`. -/
  scrNS : BitVec 1
  /-- `HSTR.T5`. -/
  hstrT5 : BitVec 1
  /-- `HSTR_EL2.T5`. -/
  hstrEL2T5 : BitVec 1
  /-- `HCR.TRVM`. -/
  hcrTRVM : BitVec 1
  /-- `HCR_EL2.TRVM`. -/
  hcrEL2TRVM : BitVec 1
  /-- `HCR.TVM`. -/
  hcrTVM : BitVec 1
  /-- `HCR_EL2.TVM`. -/
  hcrEL2TVM : BitVec 1
  /-- The current translation table format (R24, R42 c, D11). -/
  fmt : Fmt
  /-- The current instruction set (30_encoding.md R66, R68). -/
  iset : ISet
  /-- `ConditionPassed` (R64, D3). -/
  conditionPassed : Bool
  deriving DecidableEq, Repr, Inhabited

/-- The environment's steps: what a full machine does between two accessors and this spec takes as inputs (00_scope.md
R11, 95_test_vectors.md section 8; log 11, log 26). -/
inductive EnvEvent where
  /-- An instruction fault is reported in IFSR (60_exceptions.md R110). -/
  | instructionFault (r : FaultReport)
  /-- The PE is reset and starts in this context at this address, both inputs (70_reset_and_hazards.md R140, R141). -/
  | reset (start : Context) (vector : Word)
  /-- The context inputs take these values (10_state.md R37, D17). -/
  | context (c : Context)
  /-- Control goes to this address: an exception entry or return, or instructions outside the spec (R39, R125). -/
  | transfer (target : Word)
  /-- Instructions outside the spec leave this value in R[t] (R37). -/
  | register (t : Fin 15) (v : Word)
  /-- Instructions outside the spec, or another agent, leave this byte in memory (20_memory.md R57). -/
  | memoryByte (a : Word) (b : Byte)
  /-- AArch64 software writes the storage under the name IFSR32_EL2 (R23, D21). -/
  | ifsr32El2Write (v : Word)
  deriving DecidableEq, Repr

/-- Whose turn a step is: the PE's, which executes the instruction at pc, or the environment's. -/
inductive Turn where
  | instruction
  | environment (e : EnvEvent)
  deriving DecidableEq, Repr

/-- The instruction memory: address and byte pairs, addresses strictly rising, an unlisted address having no value
(log 7). -/
abbrev Memory := List Host.Cell

/-- The state of the machine. -/
structure State where
  /-- The configuration, fixed for a run (R6). -/
  cfg : Config
  /-- R[0] to R[14] (R38, D28). -/
  gpr : Vector Word 15
  /-- The program counter (R39). -/
  pc : Word
  /-- The context inputs (R37). -/
  ctx : Context
  /-- IFSR, IFSR_S, IFSR_NS (R21). -/
  cells : Bank
  /-- One IFAR per IFSR cell (R41, D18; log 13). -/
  ifars : Bank
  /-- The instruction memory. -/
  mem : Memory
  /-- The MODEL's own: the turns still to come; when it is empty every step is the PE's (log 11). -/
  schedule : List Turn
  /-- The MODEL's own: how many UNKNOWN values and free choices have been drawn (log 8). -/
  draws : Nat
  deriving DecidableEq, Repr

/-- Where a step stops. Each ends the run: the source does not say what follows (70_reset_and_hazards.md R147). -/
inductive Fault where
  /-- `Undefined`: an accessor at EL0 (R82, R120, D16). Raised by the access check. Safe. -/
  | undefined
  /-- `TrapEL2_A64(code)`: an access at EL1 trapped to an EL2 using AArch64 (R83 to R85, R121). Raised by the access
  check. Safe. -/
  | trapEL2A64 (code : Nat)
  /-- `TrapHyp(code)`: an access at EL1 trapped to Hyp mode (R83 to R85, R122). Raised by the access check. Safe. -/
  | trapHyp (code : Nat)
  /-- The instruction fetch reads a byte that nothing has supplied (log 7). Raised by the fetch. Safe. -/
  | fetchUnwritten (address : Word)
  deriving DecidableEq, Repr

/-- What the model gives no meaning (the outcome `Refused` of 00_scope.md R9). -/
inductive Refusal where
  /-- An instruction with no meaning in the model yet. Raised by exec's arms only. Safe. -/
  | notModelled (mnemonic : String)
  /-- Register number 15 in Rt (30_encoding.md R63, D2). Raised by the accessors. Safe. -/
  | registerFifteen
  /-- An A32 accessor with cond 0b1111, which is a different instruction (R67 c). Raised by the accessors. Safe. -/
  | conditionUnallocated
  /-- The bytes at pc are not an accessor (R67). Raised by the fetch. Safe. -/
  | notDecoded (e : DecodeError)
  /-- pc is where no accessor of the current instruction set stands (20_memory.md R53; log 19). Raised by the fetch. Safe. -/
  | misalignedFetch
  /-- The cause has no code in the current layout (60_exceptions.md R104, R110). Raised by the hardware write. Safe. -/
  | noStatusCode (cause : Cause) (fmt : Fmt)
  deriving DecidableEq, Repr

/-- What a step answers. -/
abbrev Answer := Host.Outcome State Fault Refusal

/-- The context at reset. The spec gives these inputs no reset value (R141): PRESUMED, the family's, of a PE that starts
at EL1 (log 3). Unsafe. -/
def Context.atReset : Context :=
  { el := .el1, el2Enabled := false, scrNS := 0#1, hstrT5 := 0#1, hstrEL2T5 := 0#1, hcrTRVM := 0#1, hcrEL2TRVM := 0#1,
    hcrTVM := 0#1, hcrEL2TVM := 0#1, fmt := .short, iset := .a32, conditionPassed := true }

/-- The machine right after reset. The cells hold independent draws (R44, R140, D6); the configuration is open but for the
fetch byte order (log 6); the rest holds the values that log 2, 3 and 5 name. -/
def State.reset : State :=
  { cfg := { Config.implementation with fetchByteOrder := .little }
    gpr := Vector.replicate 15 0#32
    pc := 0#32
    ctx := Context.atReset
    cells := { single := Config.unknown32 0, secure := Config.unknown32 1, nonsecure := Config.unknown32 2 }
    ifars := { single := 0#32, secure := 0#32, nonsecure := 0#32 }
    mem := []
    schedule := []
    draws := 3 }

end Sys2Proof.Machine
end

