-- ==== Sys2Proof/Machine/Flags.lean ====
section
/-! DEFINITION. Conditions. No rule reads or writes a condition flag (10_state.md R40, D29); the condition of an accessor
is an input of the step (30_encoding.md R64, D3; log 10). -/

namespace Sys2Proof.Machine

/-- `ConditionPassed` (R64). -/
def State.conditionPassed (s : State) : Bool := s.ctx.conditionPassed

end Sys2Proof.Machine
end

