-- ==== Sys2Proof/Machine/Operands.lean ====
section
/-! DEFINITION. The one operand form: `<Rt>`, the number of a general-purpose register (30_encoding.md R63, R65). There is
no immediate and no addressing mode (R65, 20_memory.md R59). -/

namespace Sys2Proof.Machine

/-- The register a 4-bit field names: 0 to 14 are R0 to R14, 15 is none (10_state.md R38, 30_encoding.md R63). -/
def regOf (rt : BitVec 4) : Option (Fin 15) := if h : rt.toNat < 15 then some ⟨rt.toNat, h⟩ else none

/-- R[t] (00_scope.md R8). -/
def State.readReg (s : State) (t : Fin 15) : Word := s.gpr[t]

/-- R[t] <- v (00_scope.md R8). -/
def State.writeReg (s : State) (t : Fin 15) (v : Word) : State := { s with gpr := s.gpr.set t v }

end Sys2Proof.Machine
end

