-- ==== Sys2Proof/Machine/Layout.lean ====
section
/-! DEFINITION. The two layouts of IFSR: fields, masks, packing, and what a direct write stores (10_state.md R24 to R35).
The positions of FnV, ExT and layout B's LPAE are PRESUMED, the spec's GK2, GK3 and GK20 (log 16). -/

namespace Sys2Proof.Machine

/-! ## Field extraction (R34) -/

/-- FnV, bit [16] (R29). -/
def fnvOf (v : Word) : BitVec 1 := v.extractLsb' 16 1
/-- ExT, bit [12] (R30). -/
def extOf (v : Word) : BitVec 1 := v.extractLsb' 12 1
/-- LPAE, bit [9] (R32). -/
def lpaeOf (v : Word) : BitVec 1 := v.extractLsb' 9 1
/-- FS = v[10] : v[3:0] (R31). -/
def fsField (v : Word) : BitVec 5 := v.extractLsb' 10 1 ++ v.extractLsb' 0 4
/-- STATUS = v[5:0] (R33). -/
def statusField (v : Word) : BitVec 6 := v.extractLsb' 0 6

/-! ## Packing (R35) -/

/-- `PackA` (R35): LPAE and every RES0 bit of layout A are 0. -/
def packA (fs : BitVec 5) (fnv ext : BitVec 1) : Word :=
  fnv.setWidth 32 <<< 16 ||| ext.setWidth 32 <<< 12 ||| (fs.extractLsb' 4 1).setWidth 32 <<< 10
    ||| (fs.extractLsb' 0 4).setWidth 32

/-- `PackB` (R35): LPAE is 1 and every RES0 bit of layout B is 0. -/
def packB (st : BitVec 6) (fnv ext : BitVec 1) : Word :=
  fnv.setWidth 32 <<< 16 ||| ext.setWidth 32 <<< 12 ||| 1#32 <<< 9 ||| st.setWidth 32

/-! ## RES0 bits and the direct write (R28) -/

/-- `RES0bits` (R28). -/
def res0Bits : Fmt → Word
  | .short => 0xFFFEE9F0#32
  | .long => 0xFFFEEDC0#32

/-- The bits of the layout's fields, the complement of `RES0bits` (R28). -/
def fieldBits : Fmt → Word
  | .short => 0x0001160F#32
  | .long => 0x0001123F#32

/-- The bits an implementation may hardwire to 0: RES0 bits of the current layout, and ExT where it classifies no
External abort (R28, R30, D4). -/
def mayHardwire (cfg : Config) (fmt : Fmt) : Word :=
  match cfg.extClass with
  | .unclassified => res0Bits fmt ||| 0x00001000#32
  | .classified => res0Bits fmt

/-- `HardZero(fmt)` (R28, D4): what the implementation hardwires, of what the law allows (log 14). -/
def hardZero (cfg : Config) (fmt : Fmt) : Word :=
  match fmt with
  | .short => cfg.wiredShort &&& mayHardwire cfg .short
  | .long => cfg.wiredLong &&& mayHardwire cfg .long

/-- What a direct write of `w` stores (R28, R81). -/
def directValue (cfg : Config) (fmt : Fmt) (w : Word) : Word := w &&& ~~~(hardZero cfg fmt)

end Sys2Proof.Machine
end

