-- ==== Sys2Proof/Machine/Status.lean ====
section
/-! DEFINITION. Fault status codes (60_exceptions.md R100 to R105): from a cause to its code in each layout, and back from
a register value to the cause. The two directions are written separately, one from the table of R104, one from the
tables of R100 and R102. -/

namespace Sys2Proof.Machine

/-- Can the implementation report the cause at all (R101, R103, R104's last column)? -/
def causeAvailable (cfg : Config) : Cause → Bool
  | .syncParity => !cfg.haveRAS
  | .syncParityWalk _ => !cfg.haveRAS
  | .lockdown => cfg.haveLockdown
  | _ => true

/-- Column `FSof` of R104. -/
def fsCode : Cause → Option (BitVec 5)
  | .addressSizeBase => none
  | .addressSize _ => none
  | .translation .one => some 0b00101#5
  | .translation .two => some 0b00111#5
  | .translation .three => none
  | .accessFlag .one => some 0b00011#5
  | .accessFlag .two => some 0b00110#5
  | .accessFlag .three => none
  | .domain .one => some 0b01001#5
  | .domain .two => some 0b01011#5
  | .permission .one => some 0b01101#5
  | .permission .two => some 0b01111#5
  | .permission .three => none
  | .syncExternal => some 0b01000#5
  | .syncExternalWalk .one => some 0b01100#5
  | .syncExternalWalk .two => some 0b01110#5
  | .syncExternalWalk .three => none
  | .syncParity => some 0b11001#5
  | .syncParityWalk .one => some 0b11100#5
  | .syncParityWalk .two => some 0b11110#5
  | .syncParityWalk .three => none
  | .pcAlignment => some 0b00001#5
  | .debug => some 0b00010#5
  | .tlbConflict => some 0b10000#5
  | .lockdown => some 0b10100#5

/-- Column `STATUSof` of R104. -/
def statusCode : Cause → Option (BitVec 6)
  | .addressSizeBase => some 0b000000#6
  | .addressSize .one => some 0b000001#6
  | .addressSize .two => some 0b000010#6
  | .addressSize .three => some 0b000011#6
  | .translation .one => some 0b000101#6
  | .translation .two => some 0b000110#6
  | .translation .three => some 0b000111#6
  | .accessFlag .one => some 0b001001#6
  | .accessFlag .two => some 0b001010#6
  | .accessFlag .three => some 0b001011#6
  | .domain _ => none
  | .permission .one => some 0b001101#6
  | .permission .two => some 0b001110#6
  | .permission .three => some 0b001111#6
  | .syncExternal => some 0b010000#6
  | .syncExternalWalk .one => some 0b010101#6
  | .syncExternalWalk .two => some 0b010110#6
  | .syncExternalWalk .three => some 0b010111#6
  | .syncParity => some 0b011000#6
  | .syncParityWalk .one => some 0b011101#6
  | .syncParityWalk .two => some 0b011110#6
  | .syncParityWalk .three => some 0b011111#6
  | .pcAlignment => some 0b100001#6
  | .debug => some 0b100010#6
  | .tlbConflict => some 0b110000#6
  | .lockdown => none

/-- `FSof(cause)`, defined only for a cause the implementation can report (R101, R104). -/
def fsOf (cfg : Config) (c : Cause) : Option (BitVec 5) := if causeAvailable cfg c then fsCode c else none

/-- `STATUSof(cause)`, defined only for a cause the implementation can report (R103, R104). -/
def statusOf (cfg : Config) (c : Cause) : Option (BitVec 6) := if causeAvailable cfg c then statusCode c else none

/-- The table of R100: the cause an FS value names, none for the reserved values of R101. -/
def fsTable (fs : BitVec 5) : Option Cause :=
  match fs with
  | 0b00001#5 => some .pcAlignment
  | 0b00010#5 => some .debug
  | 0b00011#5 => some (.accessFlag .one)
  | 0b00101#5 => some (.translation .one)
  | 0b00110#5 => some (.accessFlag .two)
  | 0b00111#5 => some (.translation .two)
  | 0b01000#5 => some .syncExternal
  | 0b01001#5 => some (.domain .one)
  | 0b01011#5 => some (.domain .two)
  | 0b01100#5 => some (.syncExternalWalk .one)
  | 0b01101#5 => some (.permission .one)
  | 0b01110#5 => some (.syncExternalWalk .two)
  | 0b01111#5 => some (.permission .two)
  | 0b10000#5 => some .tlbConflict
  | 0b10100#5 => some .lockdown
  | 0b11001#5 => some .syncParity
  | 0b11100#5 => some (.syncParityWalk .one)
  | 0b11110#5 => some (.syncParityWalk .two)
  | _ => none

/-- The table of R102: the cause a STATUS value names, none for the reserved values of R103. -/
def statusTable (st : BitVec 6) : Option Cause :=
  match st with
  | 0b000000#6 => some .addressSizeBase
  | 0b000001#6 => some (.addressSize .one)
  | 0b000010#6 => some (.addressSize .two)
  | 0b000011#6 => some (.addressSize .three)
  | 0b000101#6 => some (.translation .one)
  | 0b000110#6 => some (.translation .two)
  | 0b000111#6 => some (.translation .three)
  | 0b001001#6 => some (.accessFlag .one)
  | 0b001010#6 => some (.accessFlag .two)
  | 0b001011#6 => some (.accessFlag .three)
  | 0b001101#6 => some (.permission .one)
  | 0b001110#6 => some (.permission .two)
  | 0b001111#6 => some (.permission .three)
  | 0b010000#6 => some .syncExternal
  | 0b010101#6 => some (.syncExternalWalk .one)
  | 0b010110#6 => some (.syncExternalWalk .two)
  | 0b010111#6 => some (.syncExternalWalk .three)
  | 0b011000#6 => some .syncParity
  | 0b011101#6 => some (.syncParityWalk .one)
  | 0b011110#6 => some (.syncParityWalk .two)
  | 0b011111#6 => some (.syncParityWalk .three)
  | 0b100001#6 => some .pcAlignment
  | 0b100010#6 => some .debug
  | 0b110000#6 => some .tlbConflict
  | _ => none

/-- The cause a code names, `none` being `ReservedStatus`: codes made reserved by the configuration are reserved too
(R101, R103, R105). -/
def causeIn (cfg : Config) (c : Option Cause) : Option Cause := c.filter (causeAvailable cfg)

/-- The layout a register value is read in, by its LPAE bit (R105; 90_conflicts.md C5). -/
def layoutOf (v : Word) : Fmt := if lpaeOf v = 0#1 then .short else .long

/-- The cause a value names in the layout its LPAE bit tells, `none` being `ReservedStatus` (R105). Bits that are RES0 in
that layout take no part. -/
def decodeStatus (cfg : Config) (v : Word) : Option Cause :=
  match layoutOf v with
  | .short => causeIn cfg (fsTable (fsField v))
  | .long => causeIn cfg (statusTable (statusField v))

/-- What `Decode` answers: the layout read, the cause or `none` for `ReservedStatus`, FnV and ExT alongside (R105). -/
structure StatusReading where
  layout : Fmt
  cause : Option Cause
  fnv : BitVec 1
  ext : BitVec 1
  deriving DecidableEq, Repr

/-- `Decode(v)` (R105). Exact for a value the hardware wrote, for a value software wrote only a reading of its bits
(D19). -/
def readStatus (cfg : Config) (v : Word) : StatusReading :=
  { layout := layoutOf v, cause := decodeStatus cfg v, fnv := fnvOf v, ext := extOf v }

/-- `FnVbit` (R111). -/
def fnvBit (c : Cause) (fnvIn : BitVec 1) : BitVec 1 := if c = .syncExternal then fnvIn else 0#1

/-- The causes for which ExT may be 1: those named External abort, and, admitted by D12, the parity or ECC ones (R112). -/
def extApplies : Cause → Bool
  | .syncExternal => true
  | .syncExternalWalk _ => true
  | .syncParity => true
  | .syncParityWalk _ => true
  | _ => false

/-- `ExTbit` (R112). -/
def extBit (cfg : Config) (c : Cause) (extIn : BitVec 1) : BitVec 1 :=
  match cfg.extClass with
  | .unclassified => 0#1
  | .classified => if extApplies c then extIn else 0#1

/-- The value the hardware writes for a fault in a format, none where the cause has no code in that layout (R110). -/
def statusWord (cfg : Config) (fmt : Fmt) (r : FaultReport) : Option Word :=
  let fnv := fnvBit r.cause r.fnvIn
  let ext := extBit cfg r.cause r.extIn
  match fmt with
  | .short => (fsOf cfg r.cause).map fun fs => packA fs fnv ext
  | .long => (statusOf cfg r.cause).map fun st => packB st fnv ext

end Sys2Proof.Machine
end

