-- ==== Sys2Proof/Machine/Ops.lean ====
section
/-! DEFINITION. The named operations: memory bytes, cells, the access check and cell selection, how an access stops, the
hardware write at an instruction fault, reset as a step. -/

namespace Sys2Proof.Machine

/-! ## The instruction memory (log 7) -/

/-- A byte of memory; an address nothing has written has no value. -/
def memRead : Memory → Nat → Option Byte
  | [], _ => none
  | (x, c) :: rest, a => if x = a then some c else memRead rest a

/-- Writes a byte, keeping addresses strictly rising. -/
def memWrite : Memory → Nat → Byte → Memory
  | [], a, b => [(a, b)]
  | (x, c) :: rest, a, b =>
    if a < x then (a, b) :: (x, c) :: rest
    else if a = x then (a, b) :: rest
    else (x, c) :: memWrite rest a b

/-- Addresses are at least `lo`, below 2^32 and strictly rising. -/
def memRising (lo : Nat) : Memory → Bool
  | [] => true
  | (x, _) :: rest => decide (lo ≤ x) && decide (x < 2 ^ 32) && memRising (x + 1) rest

/-- The canonical form: addresses of 32 bits, strictly rising. No listed byte equals what an unlisted address reads as,
since that is no value. -/
def Memory.wf (m : Memory) : Bool := memRising 0 m

/-! ## Updates of the state -/

/-- pc <- pc + 4 (10_state.md R39, D8). -/
def State.advance (s : State) : State := { s with pc := s.pc + 4#32 }

def State.setPc (s : State) (target : Word) : State := { s with pc := target }
def State.setCtx (s : State) (c : Context) : State := { s with ctx := c }
def State.setMem (s : State) (m : Memory) : State := { s with mem := m }
def State.setSchedule (s : State) (l : List Turn) : State := { s with schedule := l }

/-- Counts n draws of a free value as used (log 8). -/
def State.drawn (s : State) (n : Nat) : State := { s with draws := s.draws + n }

/-! ## Cells (10_state.md R21) -/

def Bank.get (b : Bank) : CellName → Word
  | .single => b.single
  | .secure => b.secure
  | .nonsecure => b.nonsecure

def Bank.set (b : Bank) (c : CellName) (v : Word) : Bank :=
  match c with
  | .single => { b with single := v }
  | .secure => { b with secure := v }
  | .nonsecure => { b with nonsecure := v }

/-- `IFSR_cell(c)` (00_scope.md R8). -/
def State.readCell (s : State) (c : CellName) : Word := s.cells.get c

/-- `IFSR_cell(c) <- v`: all 32 bits in one step (20_memory.md R54). -/
def State.writeCell (s : State) (c : CellName) (v : Word) : State := { s with cells := s.cells.set c v }

/-- The IFAR that belongs to a cell (10_state.md R41, D18). -/
def State.readIfar (s : State) (c : CellName) : Word := s.ifars.get c

def State.writeIfar (s : State) (c : CellName) (v : Word) : State := { s with ifars := s.ifars.set c v }

/-- The cells are banked: `HaveEL(EL3) && ELUsingAArch32(EL3)` (R21). -/
def banked (cfg : Config) : Bool := cfg.haveEL3 && cfg.el3A32

/-- The cell that IFSR32_EL2 denotes: the only cell; with banked cells the Non-secure one, though no level uses AArch64
there (R23, D21; log 24). -/
def aarch64Cell (cfg : Config) : CellName := if banked cfg then .nonsecure else .single

/-- The AArch64 view of the storage (R23). -/
def State.ifsr32El2 (s : State) : Word := s.readCell (aarch64Cell s.cfg)

/-! ## The access check and the cell (40_sysreg_access.md R82 to R87) -/

/-- The number both trap functions carry (R83, 60_exceptions.md R121). -/
def trapCode : Nat := 0x03

/-- `HCR_EL2.TRVM` for a read, `HCR_EL2.TVM` for a write (R84, R85). -/
def vmTrapA64 (k : AccessKind) (x : Context) : BitVec 1 :=
  match k with
  | .read => x.hcrEL2TRVM
  | .write => x.hcrEL2TVM

/-- `HCR.TRVM` for a read, `HCR.TVM` for a write (R84, R85). -/
def vmTrapA32 (k : AccessKind) (x : Context) : BitVec 1 :=
  match k with
  | .read => x.hcrTRVM
  | .write => x.hcrTVM

/-- `AccessCheck` (R86), `none` being `OK`: the source's chain of tests, in its order. -/
def accessCheck (k : AccessKind) (cfg : Config) (x : Context) : Option Fault :=
  match x.el with
  | .el0 => some .undefined
  | .el1 =>
    if x.el2Enabled && !cfg.el2A32 && x.hstrEL2T5 == 1#1 then some (.trapEL2A64 trapCode)
    else if x.el2Enabled && cfg.el2A32 && x.hstrT5 == 1#1 then some (.trapHyp trapCode)
    else if x.el2Enabled && !cfg.el2A32 && vmTrapA64 k x == 1#1 then some (.trapEL2A64 trapCode)
    else if x.el2Enabled && cfg.el2A32 && vmTrapA32 k x == 1#1 then some (.trapHyp trapCode)
    else none
  | .el2 => none
  | .el3 => none

/-- The banked cell that SCR.NS selects (R87). -/
def cellByNS (x : Context) : CellName := if x.scrNS = 0#1 then .secure else .nonsecure

/-- `SelectCell` (R87). The rule has no row for EL0, where it is never evaluated: `none` (log 35). -/
def selectCell (cfg : Config) (x : Context) : Option CellName :=
  match x.el with
  | .el0 => none
  | .el1 => some (if banked cfg then cellByNS x else .single)
  | .el2 => some (if banked cfg then .nonsecure else .single)
  | .el3 => some (cellByNS x)

/-! ## How an access stops, and how an accessor runs -/

/-- `raise` (00_scope.md R8): the one way an accessor takes an exception. The step ends with the named outcome and writes
no other state; the entry sequence, and the return from it, are in no source (60_exceptions.md R120 to R122, R125, R126;
log 21). -/
def raise (f : Fault) : Answer := .fault f

/-- An access that may be made: the check passes and a cell is selected. -/
def authorise (k : AccessKind) (s : State) : Except Fault CellName :=
  match accessCheck k s.cfg s.ctx, selectCell s.cfg s.ctx with
  | some f, _ => .error f
  | none, some c => .ok c
  | none, none => .error .undefined

/-- The shape R80 and R81 share: condition, access check, cell, transfer. With a failed condition the accessor only
advances pc; where it would have stopped, whether it stops or advances is a free choice (30_encoding.md R64, D3; log 9). -/
def accessor (k : AccessKind) (transfer : CellName → State → State) (s : State) : Answer :=
  match authorise k s with
  | .ok c => if s.conditionPassed then .next (transfer c s).advance else .next s.advance
  | .error f =>
    if s.conditionPassed || Config.failedConditionTakesException s.draws then raise f
    else .next (s.advance.drawn 1)

/-- The read accessor of R80; register number 15 is refused (30_encoding.md R63). -/
def readAccessor (rt : BitVec 4) (s : State) : Answer :=
  match regOf rt with
  | none => .refused .registerFifteen
  | some t => accessor .read (fun c s => s.writeReg t (s.readCell c)) s

/-- The write accessor of R81; register number 15 is refused (30_encoding.md R63). -/
def writeAccessor (rt : BitVec 4) (s : State) : Answer :=
  match regOf rt with
  | none => .refused .registerFifteen
  | some t => accessor .write (fun c s => s.writeCell c (directValue s.cfg s.ctx.fmt (s.readReg t))) s

/-- An A32 word with cond 0b1111 is a different instruction (30_encoding.md R67 c). -/
def underA32Condition (cond : BitVec 4) (run : State → Answer) (s : State) : Answer :=
  if cond = 0b1111#4 then .refused .conditionUnallocated else run s

/-! ## The hardware write and reset -/

/-- IFAR in the hardware write: an UNKNOWN value with FnV 1, the fault address otherwise (60_exceptions.md R110,
10_state.md R41). -/
def reportIfar (r : FaultReport) (s : State) : State :=
  if fnvBit r.cause r.fnvIn = 1#1 then (s.writeIfar r.cell (Config.unknown32 s.draws)).drawn 1
  else s.writeIfar r.cell r.faultAddress

/-- `ReportInstructionFault` (60_exceptions.md R110): what taking an instruction fault writes. All 32 bits of the cell are
replaced; a cause with no code in the current layout is refused. Of the rest of the entry the source settles nothing
(R125). -/
def reportInstructionFault (r : FaultReport) (s : State) : Answer :=
  match statusWord s.cfg s.ctx.fmt r with
  | none => .refused (.noStatusCode r.cause s.ctx.fmt)
  | some v => .next (reportIfar r (s.writeCell r.cell v))

/-- Reset as a step (70_reset_and_hazards.md R140): every cell takes a draw of its own. The context and the address the PE
starts with are inputs (R141); registers and IFAR take the values State.reset names (log 2, 5, 23). -/
def resetPE (start : Context) (vector : Word) (s : State) : State :=
  { s with
    gpr := State.reset.gpr
    pc := vector
    ctx := start
    cells :=
      { single := Config.unknown32 s.draws, secure := Config.unknown32 (s.draws + 1),
        nonsecure := Config.unknown32 (s.draws + 2) }
    ifars := State.reset.ifars
    draws := s.draws + 3 }

/-- A step of the environment. -/
def environmentStep (e : EnvEvent) (s : State) : Answer :=
  match e with
  | .instructionFault r => reportInstructionFault r s
  | .reset start vector => .next (resetPE start vector s)
  | .context c => .next (s.setCtx c)
  | .transfer target => .next (s.setPc target)
  | .register t v => .next (s.writeReg t v)
  | .memoryByte a b => .next (s.setMem (memWrite s.mem a.toNat b))
  | .ifsr32El2Write v => .next (s.writeCell (aarch64Cell s.cfg) v)

end Sys2Proof.Machine
end

