-- ==== Sys2Proof/Machine/Accessors.lean ====
section
/-! DEFINITION. The meanings of the four rows (40_sysreg_access.md R80, R81). -/

namespace Sys2Proof.Machine

/-- `MRC p15, 0, <Rt>, c5, c0, 1` in A32: R80 under a condition field (30_encoding.md R64). -/
def execMrcA32 (cond rt : BitVec 4) (s : State) : Answer := underA32Condition cond (readAccessor rt) s

/-- `MCR p15, 0, <Rt>, c5, c0, 1` in A32: R81 under a condition field (R64). -/
def execMcrA32 (cond rt : BitVec 4) (s : State) : Answer := underA32Condition cond (writeAccessor rt) s

/-- `MRC p15, 0, <Rt>, c5, c0, 1` in T32: R80. -/
def execMrcT32 (rt : BitVec 4) (s : State) : Answer := readAccessor rt s

/-- `MCR p15, 0, <Rt>, c5, c0, 1` in T32: R81. -/
def execMcrT32 (rt : BitVec 4) (s : State) : Answer := writeAccessor rt s

end Sys2Proof.Machine
end

