-- ==== Sys2Proof/Machine/Fetch.lean ====
section
/-! DEFINITION. Fetching the instruction at pc from the instruction memory, and placing one there. The fetch itself is
outside the spec (20_memory.md R50); what it needs is log 7, 19 and 20. -/

namespace Sys2Proof.Machine

/-- Where an accessor may stand: A32 at multiples of 4, T32 at multiples of 2 (20_memory.md R53). -/
def mayStandAt : ISet → Word → Bool
  | .a32, pc => pc.toNat % 4 == 0
  | .t32, pc => pc.toNat % 2 == 0

/-- The byte k addresses after pc, addresses taken modulo 2^32 (log 20). -/
def fetchByte (s : State) (k : Nat) : Host.Outcome Byte Fault Refusal :=
  let a := s.pc + BitVec.ofNat 32 k
  match memRead s.mem a.toNat with
  | some b => .next b
  | none => .fault (.fetchUnwritten a)

/-- The four bytes from pc on, lowest first; a missing one faults. -/
def fetchBytes (s : State) : Host.Outcome (List Byte) Fault Refusal :=
  match fetchByte s 0, fetchByte s 1, fetchByte s 2, fetchByte s 3 with
  | .next b0, .next b1, .next b2, .next b3 => .next [b0, b1, b2, b3]
  | .fault f, _, _, _ => .fault f
  | _, .fault f, _, _ => .fault f
  | _, _, .fault f, _ => .fault f
  | _, _, _, .fault f => .fault f
  | .refused r, _, _, _ => .refused r
  | _, .refused r, _, _ => .refused r
  | _, _, .refused r, _ => .refused r
  | _, _, _, .refused r => .refused r

/-- The instruction at pc, decoded in the current instruction set and the configured byte order. -/
def fetch (s : State) : Host.Outcome Instr Fault Refusal :=
  if mayStandAt s.ctx.iset s.pc then
    match fetchBytes s with
    | .fault f => .fault f
    | .refused r => .refused r
    | .next bytes =>
      match decode s.ctx.iset s.cfg.fetchByteOrder bytes with
      | .ok (i, _) => .next i
      | .error e => .refused (.notDecoded e)
  else .refused .misalignedFetch

/-- Bytes written one after the other from an address on, addresses taken modulo 2^32. -/
def memWriteList (m : Memory) (a : Word) : List Byte → Memory
  | [] => m
  | b :: rest => memWriteList (memWrite m a.toNat b) (a + 1#32) rest

/-- pc where an accessor of the instruction set may stand: pc itself if it may, else the multiple of 4 below it. -/
def standingPc (iset : ISet) (pc : Word) : Word := if mayStandAt iset pc then pc else pc &&& 0xFFFFFFFC#32

/-- The state whose next step fetches this word, read in this instruction set: the bytes at pc, the instruction set
current, the PE's turn next; pc moves only if no accessor may stand there (log 18). -/
def placeWord (s : State) (iset : ISet) (v : Word) : State :=
  let pc := standingPc iset s.pc
  { s with
    pc := pc
    ctx := { s.ctx with iset := iset }
    mem := memWriteList s.mem pc (wordBytes iset s.cfg.fetchByteOrder v)
    schedule := [] }

end Sys2Proof.Machine
end

