-- ==== Sys2Proof/Machine/Step.lean ====
section
/-! DEFINITION. One step of the machine: the next turn of the schedule (log 11). -/

namespace Sys2Proof.Machine

/-- The PE fetches and executes the instruction at pc. -/
def instructionStep (s : State) : Host.Outcome State Fault Refusal :=
  match fetch s with
  | .next i => exec i s
  | .fault f => .fault f
  | .refused r => .refused r

/-- One step: the turn at the schedule's head, the PE's when the schedule is empty. -/
def step (s : State) : Host.Outcome State Fault Refusal :=
  match s.schedule with
  | [] => instructionStep s
  | .instruction :: rest => instructionStep (s.setSchedule rest)
  | .environment e :: rest => environmentStep e (s.setSchedule rest)

/-- The state whose very next step runs the instruction of an opcode table word (log 18). -/
def State.withFetchWord (s : State) (nbits w : Nat) : State :=
  placeWord s (tableISet (tableWord nbits w)) (tableWord nbits w)

end Sys2Proof.Machine
end

