-- ==== Sys2Proof/Safety.lean ====
section
/-! DEFINITION. What statements speak of: when an access is permitted (70_reset_and_hazards.md R147), what a run can reach,
the invariant, and what the Secure cell's isolation means. -/

namespace Sys2Proof.Machine

/-- `T5` of the register pair member that EL2_A32 selects (10_state.md R37). -/
def t5Bit (cfg : Config) (x : Context) : BitVec 1 := if cfg.el2A32 then x.hstrT5 else x.hstrEL2T5

/-- `TRVM` for a read and `TVM` for a write, of the pair member that EL2_A32 selects (R37, R86). -/
def vmBit (k : AccessKind) (cfg : Config) (x : Context) : BitVec 1 :=
  match k with
  | .read => if cfg.el2A32 then x.hcrTRVM else x.hcrEL2TRVM
  | .write => if cfg.el2A32 then x.hcrTVM else x.hcrEL2TVM

/-- The context lets the access be made: not EL0, and at EL1 not `EL2Enabled && (T5 or TV)` (R147, R130). -/
abbrev permitted (k : AccessKind) (cfg : Config) (x : Context) : Prop :=
  x.el ≠ .el0 ∧ (x.el = .el1 → ¬(x.el2Enabled = true ∧ (t5Bit cfg x = 1#1 ∨ vmBit k cfg x = 1#1)))

/-- Does an instruction read or write IFSR (40_sysreg_access.md R80, R81)? -/
def accessKindOf : Instr → AccessKind
  | .mrcA32 _ _ => .read
  | .mcrA32 _ _ => .write
  | .mrcT32 _ => .read
  | .mcrT32 _ => .write

/-- The next step is the PE's. -/
abbrev peTurn (s : State) : Prop := s.schedule = [] ∨ s.schedule.head? = some .instruction

/-- The state in which that step executes: the turn is used up. -/
def afterTurn (s : State) : State := s.setSchedule s.schedule.tail

/-- States that a run can reach from reset, whatever the schedule the run begins with. -/
inductive Reachable : State → Prop where
  | start (turns : List Turn) : Reachable (State.reset.setSchedule turns)
  | next (s s' : State) : Reachable s → step s = .next s' → Reachable s'

/-- The invariant: the memory is in canonical form, and the draws that reset took are not drawn again. -/
abbrev Inv (s : State) : Prop := Memory.wf s.mem = true ∧ State.reset.draws ≤ s.draws

/-- The state with the Secure IFSR cell and its IFAR blanked: what is left to a Non-secure observer. -/
def State.hideSecure (s : State) : State :=
  { s with cells := s.cells.set .secure 0#32, ifars := s.ifars.set .secure 0#32 }

/-- The two states differ in nothing but what the cells in C and the registers in T hold. -/
def differOnlyIn (C : CellName → Prop) (T : Fin 15 → Prop) (s1 s2 : State) : Prop :=
  (∃ cells gpr, s2 = { s1 with cells := cells, gpr := gpr }) ∧
  (∀ c, ¬C c → s2.cells.get c = s1.cells.get c) ∧ (∀ t, ¬T t → s2.gpr[t] = s1.gpr[t])

/-- The next step is an accessor of this kind, fetched, passed and permitted, that names R[t] and selects cell c (R80,
R81). -/
def transfers (k : AccessKind) (s : State) (t : Fin 15) (c : CellName) : Prop :=
  peTurn s ∧ s.ctx.conditionPassed = true ∧ permitted k s.cfg s.ctx ∧ selectCell s.cfg s.ctx = some c ∧
  ∃ i, fetch (afterTurn s) = .next i ∧ accessKindOf i = k ∧ regOf i.rt = some t

/-- An answer seen through a function of its next state. -/
def seenThrough (f : State → State) : Answer → Answer
  | .next s => .next (f s)
  | .fault r => .fault r
  | .refused r => .refused r

/-- The PE is at EL2, or SCR.NS is 1: it never selects the Secure cell (R87, R130). -/
abbrev nonSecureSide (s : State) : Prop := s.ctx.el = .el2 ∨ s.ctx.scrNS = 1#1

end Sys2Proof.Machine
end

