-- ==== Sys2Proof/Certificates/Slice0/Obligations.lean ====
section
/-! DEFINITION. The statements for the provers. Each names the rule of spec/ it formalises; a statement that rests on a
choice of the model says so and names its log entry. -/

open Sys2Proof Sys2Proof.Machine

/-! ## Encoding and decoding -/

/-- Words the spec writes out (30_encoding.md R62, R63; 95_test_vectors.md section 6) decode to the instructions they
stand for. -/
def Obligations.SpecWordsDecode : Prop :=
  decodeWord .a32 0xEE150F30#32 = .ok (.mrcA32 0b1110#4 0#4) ∧
  decodeWord .a32 0x1E052F30#32 = .ok (.mcrA32 0b0001#4 2#4) ∧
  decodeWord .t32 0xEE150F30#32 = .ok (.mrcT32 0#4) ∧
  decodeWord .t32 0xEE053F30#32 = .ok (.mcrT32 3#4) ∧
  decodeWord .a32 0xEE150F10#32 = .error .notAnAccessor ∧
  decodeWord .a32 0xFE152F30#32 = .error .conditionUnallocated ∧
  decodeWord .t32 0xEE05FF30#32 = .error .rtFifteen

/-- Decoding the encoding of a well-formed instruction gives it back, in both byte orders, whatever follows it. -/
def Obligations.DecodeOfEncodeIsIdentity : Prop :=
  ∀ (order : ByteOrder) (i : Instr) (rest : List Byte), i.wf = true →
    decode i.iset order (encode order i ++ rest) = .ok (i, rest)

/-- Bytes that decode to an instruction are that instruction's encoding, and the instruction is well-formed: no other
bytes decode to it. -/
def Obligations.DecodedBytesAreTheEncoding : Prop :=
  ∀ (iset : ISet) (order : ByteOrder) (bytes rest : List Byte) (i : Instr), decode iset order bytes = .ok (i, rest) →
    i.wf = true ∧ i.iset = iset ∧ bytes = encode order i ++ rest

/-- R66: a word is an accessor exactly when it matches a row of its instruction set by match and mask, cond not 0b1111 in
A32, Rt not 15; cond and Rt are its bits [31:28] and [15:12]. -/
def Obligations.DecoderAcceptsExactlyTheTableRows : Prop :=
  ∀ (w : Word) (i : Instr),
    (decodeWord .a32 w = .ok i ↔
      w.extractLsb' 28 4 ≠ 0b1111#4 ∧ w.extractLsb' 12 4 ≠ 15#4 ∧
      ((w &&& 0x0FFF0FFF#32 = 0x0E150F30#32 ∧ i = .mrcA32 (w.extractLsb' 28 4) (w.extractLsb' 12 4)) ∨
       (w &&& 0x0FFF0FFF#32 = 0x0E050F30#32 ∧ i = .mcrA32 (w.extractLsb' 28 4) (w.extractLsb' 12 4)))) ∧
    (decodeWord .t32 w = .ok i ↔
      w.extractLsb' 12 4 ≠ 15#4 ∧
      ((w &&& 0xFFFF0FFF#32 = 0xEE150F30#32 ∧ i = .mrcT32 (w.extractLsb' 12 4)) ∨
       (w &&& 0xFFFF0FFF#32 = 0xEE050F30#32 ∧ i = .mcrT32 (w.extractLsb' 12 4))))

/-- R67 a to c: a word that matches no row is refused as no accessor, a row's A32 word with cond 0b1111 as another
instruction, a row's word with Rt 15 for its register. The two rows of a set differ in bit 20 only, so one mask serves
both. A first T32 halfword that starts no 32-bit instruction (R68) has a name of its own, which is the model's choice. -/
def Obligations.WordsOutsideTheTableAreRefusedByName : Prop :=
  ∀ w : Word,
    (w &&& 0x0FEF0FFF#32 ≠ 0x0E050F30#32 → decodeWord .a32 w = .error .notAnAccessor) ∧
    (w &&& 0x0FEF0FFF#32 = 0x0E050F30#32 → w.extractLsb' 28 4 = 0b1111#4 →
      decodeWord .a32 w = .error .conditionUnallocated) ∧
    (w &&& 0x0FEF0FFF#32 = 0x0E050F30#32 → w.extractLsb' 28 4 ≠ 0b1111#4 → w.extractLsb' 12 4 = 15#4 →
      decodeWord .a32 w = .error .rtFifteen) ∧
    (w &&& 0xFFEF0FFF#32 ≠ 0xEE050F30#32 → t32IsWide (w.extractLsb' 16 16) = true →
      decodeWord .t32 w = .error .notAnAccessor) ∧
    (w &&& 0xFFEF0FFF#32 ≠ 0xEE050F30#32 → t32IsWide (w.extractLsb' 16 16) = false →
      decodeWord .t32 w = .error .narrowT32) ∧
    (w &&& 0xFFEF0FFF#32 = 0xEE050F30#32 → w.extractLsb' 12 4 = 15#4 → decodeWord .t32 w = .error .rtFifteen)

/-! ## The step -/

/-- On the PE's turn, where the four bytes from pc on decode to an instruction, the step is exec of that instruction at
the state with the turn used up. -/
def Obligations.StepRunsDecodedInstruction : Prop :=
  ∀ (s : State) (b0 b1 b2 b3 : Byte) (i : Instr) (rest : List Byte),
    s.schedule = [] ∨ s.schedule.head? = some .instruction →
    mayStandAt s.ctx.iset s.pc = true →
    memRead s.mem s.pc.toNat = some b0 → memRead s.mem (s.pc + 1#32).toNat = some b1 →
    memRead s.mem (s.pc + 2#32).toNat = some b2 → memRead s.mem (s.pc + 3#32).toNat = some b3 →
    decode s.ctx.iset s.cfg.fetchByteOrder [b0, b1, b2, b3] = .ok (i, rest) →
    step s = exec i { s with schedule := s.schedule.tail }

/-- The model's choice (log 18): a table word that decodes, loaded by withFetchWord, is what the very next step runs, in
any state whose memory is in canonical form. -/
def Obligations.LoadedTableWordIsTheNextInstruction : Prop :=
  ∀ (s : State) (w : Nat) (i : Instr), Memory.wf s.mem = true → decodeTableWord 32 w = some i →
    step (s.withFetchWord 32 w) = exec i (s.withFetchWord 32 w)

/-! ## What the accessors do -/

/-- R80: with the condition passed and the access permitted, MRC (both rows) writes R[t] with all 32 bits of the selected
cell, advances pc by 4, and changes nothing else. -/
def Obligations.ReadAccessorTransfersSelectedCell : Prop :=
  ∀ (cond rt : BitVec 4) (s : State) (t : Fin 15) (c : CellName),
    cond ≠ 0b1111#4 → regOf rt = some t → s.ctx.conditionPassed = true → permitted .read s.cfg s.ctx →
    selectCell s.cfg s.ctx = some c →
    exec (.mrcA32 cond rt) s = .next { s with gpr := s.gpr.set t (s.cells.get c), pc := s.pc + 4#32 } ∧
    exec (.mrcT32 rt) s = .next { s with gpr := s.gpr.set t (s.cells.get c), pc := s.pc + 4#32 }

/-- R81: with the condition passed and the access permitted, MCR (both rows) writes the selected cell with
`R[t] AND NOT HardZero(fmt)`, advances pc by 4, and changes nothing else. -/
def Obligations.WriteAccessorStoresMaskedRegister : Prop :=
  ∀ (cond rt : BitVec 4) (s : State) (t : Fin 15) (c : CellName),
    cond ≠ 0b1111#4 → regOf rt = some t → s.ctx.conditionPassed = true → permitted .write s.cfg s.ctx →
    selectCell s.cfg s.ctx = some c →
    exec (.mcrA32 cond rt) s =
      .next { s with cells := s.cells.set c (s.gpr[t] &&& ~~~(hardZero s.cfg s.ctx.fmt)), pc := s.pc + 4#32 } ∧
    exec (.mcrT32 rt) s =
      .next { s with cells := s.cells.set c (s.gpr[t] &&& ~~~(hardZero s.cfg s.ctx.fmt)), pc := s.pc + 4#32 }

/-- The registers a field names: 0 to 14 are R0 to R14, 15 is none (10_state.md R38). -/
def Obligations.RegisterFieldNamesItsRegister : Prop :=
  regOf 15#4 = none ∧ ∀ rt : BitVec 4, rt ≠ 15#4 → ∃ t : Fin 15, regOf rt = some t ∧ t.val = rt.toNat

/-- What MRC (both rows) leaves unchanged whenever it goes on, the condition passed or not: every register but R[t], every
cell, every IFAR, the context, the configuration, the schedule and every byte of memory. -/
def Obligations.ReadAccessorFrame : Prop :=
  ∀ (cond rt : BitVec 4) (s s' : State),
    exec (.mrcA32 cond rt) s = .next s' ∨ exec (.mrcT32 rt) s = .next s' →
    (∀ u : Fin 15, regOf rt ≠ some u → s'.gpr[u] = s.gpr[u]) ∧
    (∀ c, s'.cells.get c = s.cells.get c) ∧ (∀ c, s'.ifars.get c = s.ifars.get c) ∧
    s'.ctx = s.ctx ∧ s'.cfg = s.cfg ∧ s'.schedule = s.schedule ∧ (∀ a, memRead s'.mem a = memRead s.mem a)

/-- What MCR (both rows) leaves unchanged whenever it goes on: every register, R[t] among them, every cell that is not
selected, every IFAR, the context, the configuration, the schedule and every byte of memory. -/
def Obligations.WriteAccessorFrame : Prop :=
  ∀ (cond rt : BitVec 4) (s s' : State),
    exec (.mcrA32 cond rt) s = .next s' ∨ exec (.mcrT32 rt) s = .next s' →
    (∀ u : Fin 15, s'.gpr[u] = s.gpr[u]) ∧
    (∀ c, selectCell s.cfg s.ctx ≠ some c → s'.cells.get c = s.cells.get c) ∧
    (∀ c, s'.ifars.get c = s.ifars.get c) ∧
    s'.ctx = s.ctx ∧ s'.cfg = s.cfg ∧ s'.schedule = s.schedule ∧ (∀ a, memRead s'.mem a = memRead s.mem a)

/-- R64: where the access would be permitted, a failed condition makes each of the four rows do nothing but advance pc. -/
def Obligations.FailedConditionOnlyAdvances : Prop :=
  ∀ (i : Instr) (s : State), i.wf = true → s.ctx.conditionPassed = false → permitted (accessKindOf i) s.cfg s.ctx →
    exec i s = .next { s with pc := s.pc + 4#32 }

/-- R64, 90_conflicts.md C10: where the access would be UNDEFINED or trapped, a failed condition either makes the accessor
advance pc only (a free choice is counted as drawn, log 9) or ends in the stop that the passing condition gives. -/
def Obligations.FailedConditionMayStillStop : Prop :=
  ∀ (i : Instr) (s : State), i.wf = true → s.ctx.conditionPassed = false → ¬ permitted (accessKindOf i) s.cfg s.ctx →
    exec i s = .next { s with pc := s.pc + 4#32, draws := s.draws + 1 } ∨
    ∃ f, exec i s = .fault f ∧ exec i { s with ctx := { s.ctx with conditionPassed := true } } = .fault f

/-- R82: at EL0 both accessors, in both sets, end as Undefined, whatever the trap controls and cells hold. -/
def Obligations.AccessorsUndefinedAtEL0 : Prop :=
  ∀ (cond rt : BitVec 4) (s : State), cond ≠ 0b1111#4 → rt ≠ 15#4 → s.ctx.conditionPassed = true → s.ctx.el = .el0 →
    exec (.mrcA32 cond rt) s = .fault .undefined ∧ exec (.mcrA32 cond rt) s = .fault .undefined ∧
    exec (.mrcT32 rt) s = .fault .undefined ∧ exec (.mcrT32 rt) s = .fault .undefined

/-- R83: at EL1 with EL2 enabled, T5 of the register EL2 uses traps reads and writes alike, whatever TRVM and TVM are. -/
def Obligations.T5TrapsReadsAndWrites : Prop :=
  ∀ (i : Instr) (s : State), i.wf = true → s.ctx.conditionPassed = true → s.ctx.el = .el1 →
    s.ctx.el2Enabled = true →
    (s.cfg.el2A32 = false → s.ctx.hstrEL2T5 = 1#1 → exec i s = .fault (.trapEL2A64 0x03)) ∧
    (s.cfg.el2A32 = true → s.ctx.hstrT5 = 1#1 → exec i s = .fault (.trapHyp 0x03))

/-- R84: at EL1 with EL2 enabled and no T5 trap, TRVM of the register EL2 uses traps a read; on a write it has no
effect: in every state, whatever the two TRVM bits become, both rows of MCR do what they do without the change, the
TRVM bits of the next state themselves apart. -/
def Obligations.TRVMTrapsReadsOnly : Prop :=
  ∀ (cond rt : BitVec 4) (s : State),
    (cond ≠ 0b1111#4 → rt ≠ 15#4 → s.ctx.conditionPassed = true → s.ctx.el = .el1 → s.ctx.el2Enabled = true →
      (s.cfg.el2A32 = false → s.ctx.hstrEL2T5 = 0#1 → s.ctx.hcrEL2TRVM = 1#1 →
        exec (.mrcA32 cond rt) s = .fault (.trapEL2A64 0x03) ∧ exec (.mrcT32 rt) s = .fault (.trapEL2A64 0x03)) ∧
      (s.cfg.el2A32 = true → s.ctx.hstrT5 = 0#1 → s.ctx.hcrTRVM = 1#1 →
        exec (.mrcA32 cond rt) s = .fault (.trapHyp 0x03) ∧ exec (.mrcT32 rt) s = .fault (.trapHyp 0x03))) ∧
    (∀ b b' : BitVec 1,
      seenThrough (·.setCtx s.ctx) (exec (.mcrA32 cond rt) (s.setCtx { s.ctx with hcrTRVM := b, hcrEL2TRVM := b' })) =
        exec (.mcrA32 cond rt) s ∧
      seenThrough (·.setCtx s.ctx) (exec (.mcrT32 rt) (s.setCtx { s.ctx with hcrTRVM := b, hcrEL2TRVM := b' })) =
        exec (.mcrT32 rt) s)

/-- R85: at EL1 with EL2 enabled and no T5 trap, TVM of the register EL2 uses traps a write; on a read it has no
effect: in every state, whatever the two TVM bits become, both rows of MRC do what they do without the change, the
TVM bits of the next state themselves apart. -/
def Obligations.TVMTrapsWritesOnly : Prop :=
  ∀ (cond rt : BitVec 4) (s : State),
    (cond ≠ 0b1111#4 → rt ≠ 15#4 → s.ctx.conditionPassed = true → s.ctx.el = .el1 → s.ctx.el2Enabled = true →
      (s.cfg.el2A32 = false → s.ctx.hstrEL2T5 = 0#1 → s.ctx.hcrEL2TVM = 1#1 →
        exec (.mcrA32 cond rt) s = .fault (.trapEL2A64 0x03) ∧ exec (.mcrT32 rt) s = .fault (.trapEL2A64 0x03)) ∧
      (s.cfg.el2A32 = true → s.ctx.hstrT5 = 0#1 → s.ctx.hcrTVM = 1#1 →
        exec (.mcrA32 cond rt) s = .fault (.trapHyp 0x03) ∧ exec (.mcrT32 rt) s = .fault (.trapHyp 0x03))) ∧
    (∀ b b' : BitVec 1,
      seenThrough (·.setCtx s.ctx) (exec (.mrcA32 cond rt) (s.setCtx { s.ctx with hcrTVM := b, hcrEL2TVM := b' })) =
        exec (.mrcA32 cond rt) s ∧
      seenThrough (·.setCtx s.ctx) (exec (.mrcT32 rt) (s.setCtx { s.ctx with hcrTVM := b, hcrEL2TVM := b' })) =
        exec (.mrcT32 rt) s)

/-- R86: the access check is the stated chain over T5 and TV of the register pair member that EL2_A32 selects. -/
def Obligations.AccessCheckIsTheStatedChain : Prop :=
  ∀ (k : AccessKind) (cfg : Config) (x : Context),
    accessCheck k cfg x =
      if x.el = .el0 then some .undefined
      else if x.el = .el1 then
        if x.el2Enabled = true ∧ cfg.el2A32 = false ∧ t5Bit cfg x = 1#1 then some (.trapEL2A64 0x03)
        else if x.el2Enabled = true ∧ cfg.el2A32 = true ∧ t5Bit cfg x = 1#1 then some (.trapHyp 0x03)
        else if x.el2Enabled = true ∧ cfg.el2A32 = false ∧ vmBit k cfg x = 1#1 then some (.trapEL2A64 0x03)
        else if x.el2Enabled = true ∧ cfg.el2A32 = true ∧ vmBit k cfg x = 1#1 then some (.trapHyp 0x03)
        else none
      else none

/-- R87: the cell an access reaches, row by row of the rule's table; the access check, which comes first, reads no SCR.NS,
so that a trapped or UNDEFINED access reads none. -/
def Obligations.SelectedCellFollowsTheTable : Prop :=
  ∀ (cfg : Config) (x : Context),
    (x.el = .el1 → (cfg.haveEL3 && cfg.el3A32) = false → selectCell cfg x = some .single) ∧
    (x.el = .el1 → (cfg.haveEL3 && cfg.el3A32) = true → x.scrNS = 0#1 → selectCell cfg x = some .secure) ∧
    (x.el = .el1 → (cfg.haveEL3 && cfg.el3A32) = true → x.scrNS = 1#1 → selectCell cfg x = some .nonsecure) ∧
    (x.el = .el2 → (cfg.haveEL3 && cfg.el3A32) = false → selectCell cfg x = some .single) ∧
    (x.el = .el2 → (cfg.haveEL3 && cfg.el3A32) = true → selectCell cfg x = some .nonsecure) ∧
    (x.el = .el3 → x.scrNS = 0#1 → selectCell cfg x = some .secure) ∧
    (x.el = .el3 → x.scrNS = 1#1 → selectCell cfg x = some .nonsecure) ∧
    (∀ (k : AccessKind) (b : BitVec 1), accessCheck k cfg { x with scrNS := b } = accessCheck k cfg x)

/-- R63, D2: register number 15 is refused by both accessors in both sets, in every state. -/
def Obligations.RegisterFifteenIsRefused : Prop :=
  ∀ (cond : BitVec 4) (s : State), cond ≠ 0b1111#4 →
    exec (.mrcA32 cond 15#4) s = .refused .registerFifteen ∧ exec (.mcrA32 cond 15#4) s = .refused .registerFifteen ∧
    exec (.mrcT32 15#4) s = .refused .registerFifteen ∧ exec (.mcrT32 15#4) s = .refused .registerFifteen

/-- R67 c: an A32 accessor with cond 0b1111 is refused, whatever its register, in every state. -/
def Obligations.ConditionFifteenIsRefused : Prop :=
  ∀ (rt : BitVec 4) (s : State),
    exec (.mrcA32 0b1111#4 rt) s = .refused .conditionUnallocated ∧
    exec (.mcrA32 0b1111#4 rt) s = .refused .conditionUnallocated

/-- R55, law (a) of 95_test_vectors.md section 7: a write by either row of MCR followed by a read by either row of MRC in
the same context gives `R[a] AND NOT HardZero(fmt)`. -/
def Obligations.ReadAfterWriteReturnsMaskedValue : Prop :=
  ∀ (i j : Instr) (s : State) (a b : Fin 15), i.wf = true → j.wf = true → accessKindOf i = .write →
    accessKindOf j = .read → regOf i.rt = some a → regOf j.rt = some b → s.ctx.conditionPassed = true →
    permitted .write s.cfg s.ctx → permitted .read s.cfg s.ctx →
    ∃ s1 s2, exec i s = .next s1 ∧ exec j s1 = .next s2 ∧
      s2.gpr[b] = s.gpr[a] &&& ~~~(hardZero s.cfg s.ctx.fmt)

/-- R127, R130, law (e): at EL2 and EL3 every well-formed accessor completes, whatever the trap controls. -/
def Obligations.AccessorsCompleteAtEL2AndEL3 : Prop :=
  ∀ (i : Instr) (s : State), i.wf = true → s.ctx.el = .el2 ∨ s.ctx.el = .el3 → ∃ s', exec i s = .next s'

/-- R9: a well-formed accessor completes, or ends as Undefined at EL0, or as a trap with code 0x03 at EL1 of the kind EL2
uses; it is never refused. -/
def Obligations.AccessorOutcomesAreTheFourStated : Prop :=
  ∀ (i : Instr) (s : State), i.wf = true →
    (∃ s', exec i s = .next s') ∨
    (exec i s = .fault .undefined ∧ s.ctx.el = .el0) ∨
    (exec i s = .fault (.trapEL2A64 0x03) ∧ s.ctx.el = .el1 ∧ s.ctx.el2Enabled = true ∧ s.cfg.el2A32 = false) ∨
    (exec i s = .fault (.trapHyp 0x03) ∧ s.ctx.el = .el1 ∧ s.ctx.el2Enabled = true ∧ s.cfg.el2A32 = true)

/-! ## What a direct write stores -/

/-- R28, R30, D4: no implementation hardwires a field bit of the current layout, ExT apart where it classifies no External
abort; and every assignment of hardwired bits the law allows is some implementation's: RES0 bits where External aborts
are classified, RES0 bits and bit [12] where they are not. -/
def Obligations.HardwiredBitsObeyTheLaw : Prop :=
  (∀ (cfg : Config) (fmt : Fmt),
    (cfg.extClass = .classified → hardZero cfg fmt &&& ~~~(res0Bits fmt) = 0#32) ∧
    (cfg.extClass = .unclassified → hardZero cfg fmt &&& ~~~(res0Bits fmt ||| 0x00001000#32) = 0#32)) ∧
  (∀ hShort hLong : Word, hShort &&& ~~~(res0Bits .short) = 0#32 → hLong &&& ~~~(res0Bits .long) = 0#32 →
    ∃ cfg : Config, cfg.extClass = .classified ∧ hardZero cfg .short = hShort ∧ hardZero cfg .long = hLong) ∧
  (∀ hShort hLong : Word, hShort &&& ~~~(res0Bits .short ||| 0x00001000#32) = 0#32 →
    hLong &&& ~~~(res0Bits .long ||| 0x00001000#32) = 0#32 →
    ∃ cfg : Config, cfg.extClass = .unclassified ∧ hardZero cfg .short = hShort ∧ hardZero cfg .long = hLong)

/-- R28, R32, R36: whatever the implementation hardwires, a direct write stores LPAE and every field bit of the current
layout as written, ExT apart where External aborts are not classified. -/
def Obligations.DirectWriteStoresEveryFieldBit : Prop :=
  ∀ (cfg : Config) (fmt : Fmt) (w : Word),
    lpaeOf (directValue cfg fmt w) = lpaeOf w ∧
    (cfg.extClass = .classified → directValue cfg fmt w &&& fieldBits fmt = w &&& fieldBits fmt) ∧
    (directValue cfg fmt w &&& (fieldBits fmt &&& ~~~0x00001000#32) = w &&& (fieldBits fmt &&& ~~~0x00001000#32))

/-! ## The hardware write -/

/-- R110: a reported fault whose cause has a code in the current layout replaces the whole target cell by that layout's
packing of code, FnV and ExT, writes the cell's IFAR (an UNKNOWN draw with FnV 1, the fault address otherwise), and
changes nothing else but the used-up turn and the draw counter. That each cell has an IFAR of its own is the spec's
D18 (log 13). -/
def Obligations.HardwareWriteReportsTheFault : Prop :=
  ∀ (s : State) (r : FaultReport) (rest : List Turn), s.schedule = .environment (.instructionFault r) :: rest →
    let fnv := if r.cause = .syncExternal then r.fnvIn else 0#1
    let done (v : Word) : State :=
      { s with
        schedule := rest
        cells := s.cells.set r.cell v
        ifars := s.ifars.set r.cell (if fnv = 1#1 then Config.unknown32 s.draws else r.faultAddress)
        draws := if fnv = 1#1 then s.draws + 1 else s.draws }
    (∀ fs, s.ctx.fmt = .short → fsOf s.cfg r.cause = some fs →
      step s = .next (done (packA fs fnv (extBit s.cfg r.cause r.extIn)))) ∧
    (∀ st, s.ctx.fmt = .long → statusOf s.cfg r.cause = some st →
      step s = .next (done (packB st fnv (extBit s.cfg r.cause r.extIn))))

/-- R110: a cause with no code in the current layout is refused. -/
def Obligations.CauseWithoutCodeIsRefused : Prop :=
  ∀ (s : State) (r : FaultReport) (rest : List Turn), s.schedule = .environment (.instructionFault r) :: rest →
    (s.ctx.fmt = .short → fsOf s.cfg r.cause = none → step s = .refused (.noStatusCode r.cause .short)) ∧
    (s.ctx.fmt = .long → statusOf s.cfg r.cause = none → step s = .refused (.noStatusCode r.cause .long))

/-- R111: in every value the hardware writes, FnV is fnv_in for a synchronous External abort not on a walk and 0 for every
other cause. -/
def Obligations.HardwareWritesFnVForSyncExternalOnly : Prop :=
  ∀ (cfg : Config) (fmt : Fmt) (r : FaultReport) (v : Word), statusWord cfg fmt r = some v →
    (r.cause = .syncExternal → fnvOf v = r.fnvIn) ∧ (r.cause ≠ .syncExternal → fnvOf v = 0#1)

/-- R112, D12: in every value the hardware writes, ExT is 0 without a classification and for every cause that is neither
an External abort nor a parity or ECC error; otherwise it is ext_in. -/
def Obligations.HardwareWritesExTForAbortAndParityCauses : Prop :=
  ∀ (cfg : Config) (fmt : Fmt) (r : FaultReport) (v : Word), statusWord cfg fmt r = some v →
    (cfg.extClass = .unclassified → extOf v = 0#1) ∧
    (cfg.extClass = .classified →
      (r.cause = .syncExternal ∨ (∃ n, r.cause = .syncExternalWalk n) ∨ r.cause = .syncParity ∨
        (∃ n, r.cause = .syncParityWalk n) → extOf v = r.extIn) ∧
      (r.cause ≠ .syncExternal ∧ (∀ n, r.cause ≠ .syncExternalWalk n) ∧ r.cause ≠ .syncParity ∧
        (∀ n, r.cause ≠ .syncParityWalk n) → extOf v = 0#1))

/-- R28, R32, D25: every value the hardware writes has the RES0 bits of the current layout 0 and LPAE telling that
layout. -/
def Obligations.HardwareWritesLayoutCleanly : Prop :=
  ∀ (cfg : Config) (r : FaultReport) (v : Word),
    (statusWord cfg .short r = some v → v &&& 0xFFFEE9F0#32 = 0#32 ∧ lpaeOf v = 0#1) ∧
    (statusWord cfg .long r = some v → v &&& 0xFFFEEDC0#32 = 0#32 ∧ lpaeOf v = 1#1)

/-- R105: Decode of a value the hardware wrote gives the layout, the cause, FnV and ExT that were reported. -/
def Obligations.DecodeInvertsTheHardwareWrite : Prop :=
  ∀ (cfg : Config) (fmt : Fmt) (r : FaultReport) (v : Word), statusWord cfg fmt r = some v →
    readStatus cfg v =
      { layout := fmt, cause := some r.cause, fnv := fnvBit r.cause r.fnvIn, ext := extBit cfg r.cause r.extIn }

/-- R101, R103: the hardware never writes a reserved FS or STATUS value, nor one the configuration makes reserved. -/
def Obligations.ReservedStatusIsNeverWritten : Prop :=
  ∀ (cfg : Config) (r : FaultReport) (v : Word),
    (statusWord cfg .short r = some v →
      fsField v ∉ [0b00000#5, 0b00100#5, 0b01010#5, 0b10001#5, 0b10010#5, 0b10011#5, 0b10101#5, 0b10110#5, 0b10111#5,
        0b11000#5, 0b11010#5, 0b11011#5, 0b11101#5, 0b11111#5] ∧
      (cfg.haveRAS = true → fsField v ∉ [0b11001#5, 0b11100#5, 0b11110#5]) ∧
      (cfg.haveLockdown = false → fsField v ≠ 0b10100#5)) ∧
    (statusWord cfg .long r = some v →
      statusField v ∉ [0b000100#6, 0b001000#6, 0b001100#6, 0b100000#6] ∧
      ¬(0b010001 ≤ (statusField v).toNat ∧ (statusField v).toNat ≤ 0b010100) ∧
      ¬(0b011001 ≤ (statusField v).toNat ∧ (statusField v).toNat ≤ 0b011100) ∧
      ¬(0b100011 ≤ (statusField v).toNat ∧ (statusField v).toNat ≤ 0b101111) ∧
      ¬(0b110001 ≤ (statusField v).toNat) ∧
      (cfg.haveRAS = true → statusField v ∉ [0b011000#6, 0b011101#6, 0b011110#6, 0b011111#6]))

/-- R110, R126: of two faults reported in one cell, one after the other, the cell holds the second one's status alone, and
the other cells hold what they held. -/
def Obligations.SecondFaultReplacesTheFirst : Prop :=
  ∀ (s : State) (r1 r2 : FaultReport) (rest : List Turn) (v1 v2 : Word),
    s.schedule = .environment (.instructionFault r1) :: .environment (.instructionFault r2) :: rest →
    r1.cell = r2.cell → statusWord s.cfg s.ctx.fmt r1 = some v1 → statusWord s.cfg s.ctx.fmt r2 = some v2 →
    ∃ s1 s2, step s = .next s1 ∧ step s1 = .next s2 ∧ s2.cells.get r2.cell = v2 ∧
      ∀ c, c ≠ r2.cell → s2.cells.get c = s.cells.get c

/-- R105: Decode looks at the field bits of the layout LPAE tells and at no other bit. -/
def Obligations.DecodeIgnoresReservedBits : Prop :=
  ∀ (cfg : Config) (v w : Word), lpaeOf v = lpaeOf w →
    v &&& fieldBits (layoutOf v) = w &&& fieldBits (layoutOf v) → readStatus cfg v = readStatus cfg w

/-- Law (f) of 95_test_vectors.md section 7: on every implementation, writing a hardware-written value back by a direct
write under the same format stores that value unchanged. -/
def Obligations.WritingBackKeepsAHardwareValue : Prop :=
  ∀ (cfg : Config) (fmt : Fmt) (r : FaultReport) (v : Word), statusWord cfg fmt r = some v → directValue cfg fmt v = v

/-- R35: the extraction functions undo the packing, and the packing leaves every RES0 bit of its layout 0. -/
def Obligations.PackingLaws : Prop :=
  ∀ fnv ext : BitVec 1,
    (∀ fs : BitVec 5, fsField (packA fs fnv ext) = fs ∧ lpaeOf (packA fs fnv ext) = 0#1 ∧
      fnvOf (packA fs fnv ext) = fnv ∧ extOf (packA fs fnv ext) = ext ∧ packA fs fnv ext &&& 0xFFFEE9F0#32 = 0#32) ∧
    (∀ st : BitVec 6, statusField (packB st fnv ext) = st ∧ lpaeOf (packB st fnv ext) = 1#1 ∧
      fnvOf (packB st fnv ext) = fnv ∧ extOf (packB st fnv ext) = ext ∧ packB st fnv ext &&& 0xFFFEEDC0#32 = 0#32)

/-- R104: the encoders of R104 and the tables of R100 and R102 name the same causes by the same codes. -/
def Obligations.EncodersAgreeWithTheTables : Prop :=
  (∀ (c : Cause) (fs : BitVec 5), fsCode c = some fs ↔ fsTable fs = some c) ∧
  (∀ (c : Cause) (st : BitVec 6), statusCode c = some st ↔ statusTable st = some c)

/-! ## Reset, the AArch64 name, the environment -/

/-- R140, R44, R141: the reset step gives every cell a draw of its own, next in the sequence of draws, and starts the PE
in the given context at the given address; configuration and memory stay, which is the model's choice (log 23). -/
def Obligations.ResetStepDrawsEveryCell : Prop :=
  ∀ (s : State) (start : Context) (vector : Word) (rest : List Turn),
    s.schedule = .environment (.reset start vector) :: rest →
    ∃ s', step s = .next s' ∧ s'.cells.single = Config.unknown32 s.draws ∧
      s'.cells.secure = Config.unknown32 (s.draws + 1) ∧ s'.cells.nonsecure = Config.unknown32 (s.draws + 2) ∧
      s'.draws = s.draws + 3 ∧ s'.ctx = start ∧ s'.pc = vector ∧ s'.cfg = s.cfg ∧ s'.schedule = rest ∧
      ∀ a, memRead s'.mem a = memRead s.mem a

/-- R44, D6: at reset each of the three cells holds a draw of its own, and the draws taken are counted, so that none is
drawn again (log 1, log 8). -/
def Obligations.ResetCellsAreIndependentDraws : Prop :=
  State.reset.cells = { single := Config.unknown32 0, secure := Config.unknown32 1, nonsecure := Config.unknown32 2 } ∧
  State.reset.draws = 3

/-- R23, D21: without banked cells IFSR32_EL2 and IFSR are one storage: a write under the AArch64 name is what a permitted
MRC at EL1 or EL2 returns, and what a permitted MCR there stores is seen under the AArch64 name. -/
def Obligations.AArch64NameSharesTheStorage : Prop :=
  (∀ (s : State) (v : Word) (rest : List Turn) (j : Instr) (t : Fin 15),
    s.schedule = .environment (.ifsr32El2Write v) :: rest → (s.cfg.haveEL3 && s.cfg.el3A32) = false →
    s.ctx.el = .el1 ∨ s.ctx.el = .el2 → s.ctx.conditionPassed = true → permitted .read s.cfg s.ctx →
    j.wf = true → accessKindOf j = .read → regOf j.rt = some t →
    ∃ s1 s2, step s = .next s1 ∧ s1.cells.single = v ∧ exec j s1 = .next s2 ∧ s2.gpr[t] = v) ∧
  (∀ (s : State) (i : Instr) (t : Fin 15), (s.cfg.haveEL3 && s.cfg.el3A32) = false →
    s.ctx.el = .el1 ∨ s.ctx.el = .el2 → s.ctx.conditionPassed = true → permitted .write s.cfg s.ctx →
    i.wf = true → accessKindOf i = .write → regOf i.rt = some t →
    ∃ s1, exec i s = .next s1 ∧ s1.ifsr32El2 = s.gpr[t] &&& ~~~(hardZero s.cfg s.ctx.fmt))

/-- The model's own input steps (log 26): a change of context, a transfer of control, a register value and a memory byte
each change that one thing and use up the turn; the cells in particular stay. -/
def Obligations.EnvironmentInputsChangeOneThing : Prop :=
  ∀ (s : State) (rest : List Turn), Memory.wf s.mem = true →
    (∀ x, s.schedule = .environment (.context x) :: rest → step s = .next { s with ctx := x, schedule := rest }) ∧
    (∀ p, s.schedule = .environment (.transfer p) :: rest → step s = .next { s with pc := p, schedule := rest }) ∧
    (∀ t v, s.schedule = .environment (.register t v) :: rest →
      step s = .next { s with gpr := s.gpr.set t v, schedule := rest }) ∧
    (∀ (a : Word) (b : Byte), s.schedule = .environment (.memoryByte a b) :: rest →
      ∃ m, step s = .next { s with mem := m, schedule := rest } ∧
        ∀ x, memRead m x = if x = a.toNat then some b else memRead s.mem x)

/-! ## The whole machine -/

/-- Every step, the PE's or the environment's, keeps the invariant: memory in canonical form, reset's draws never drawn
again (log 7, log 8). -/
def Obligations.StepKeepsTheInvariant : Prop :=
  ∀ s s' : State, Inv s → step s = .next s' → Inv s'

/-- The state after reset has the invariant. -/
def Obligations.ResetHasTheInvariant : Prop := Inv State.reset

/-- No step changes the configuration, and no step takes back a draw (R6, R22, D5). -/
def Obligations.StepKeepsTheConfiguration : Prop :=
  ∀ s s' : State, step s = .next s' → s'.cfg = s.cfg ∧ s.draws ≤ s'.draws

/-- Whole-machine rule (R20, R36, R87, R110, R140, D21): a cell changes in a step only if that step reports a fault in it,
resets the PE, writes it under its AArch64 name, or is a passed and permitted MCR outside EL0 that selects it; and it
then holds what that writer gives. -/
def Obligations.OnlyNamedWritersChangeACell : Prop :=
  ∀ (s s' : State) (c : CellName), step s = .next s' → s'.cells.get c ≠ s.cells.get c →
    (∃ r rest, s.schedule = .environment (.instructionFault r) :: rest ∧ r.cell = c ∧
      statusWord s.cfg s.ctx.fmt r = some (s'.cells.get c)) ∨
    (∃ start vector rest, s.schedule = .environment (.reset start vector) :: rest) ∨
    (∃ v rest, s.schedule = .environment (.ifsr32El2Write v) :: rest ∧ c = aarch64Cell s.cfg ∧ s'.cells.get c = v) ∨
    (peTurn s ∧ s.ctx.el ≠ .el0 ∧ s.ctx.conditionPassed = true ∧ permitted .write s.cfg s.ctx ∧
      selectCell s.cfg s.ctx = some c ∧
      ∃ i t, fetch (afterTurn s) = .next i ∧ accessKindOf i = .write ∧ regOf i.rt = some t ∧
        s'.cells.get c = s.gpr[t] &&& ~~~(hardZero s.cfg s.ctx.fmt))

/-- R32, R81: a cell's value has no effect but on what a read returns. Two states that differ only in the cells in C and
the registers in T stop alike in a step, or go on to two states that differ only in those, in the cell that a fetched,
passed and permitted MCR writes from a register in T, and in R[t] of a fetched, passed and permitted MRC from a cell in
C. With one cell as C and no register as T: the cell's value reaches no other cell in a step, and no register but that
R[t]. The two relations have one form, so the statement extends over any run. -/
def Obligations.CellValuesReachOnlyWhatIsRead : Prop :=
  ∀ (C : CellName → Prop) (T : Fin 15 → Prop) (s1 s2 : State), differOnlyIn C T s1 s2 →
    (∃ f, step s1 = .fault f ∧ step s2 = .fault f) ∨
    (∃ r, step s1 = .refused r ∧ step s2 = .refused r) ∨
    (∃ s1' s2', step s1 = .next s1' ∧ step s2 = .next s2' ∧
      differOnlyIn (fun c => C c ∨ ∃ t, transfers .write s1 t c ∧ T t) (fun t => T t ∨ ∃ c, transfers .read s1 t c ∧ C c)
        s1' s2')

/-- R87, R130: on the PE's turn at EL2, or with SCR.NS 1, the step neither reads the Secure cell nor depends on it: from
states that agree on all but the Secure cell and its IFAR it stops alike or goes on to states that agree so. -/
def Obligations.NonSecureStepsDoNotSeeTheSecureCell : Prop :=
  ∀ s1 s2 : State, peTurn s1 → nonSecureSide s1 → s1.hideSecure = s2.hideSecure →
    seenThrough State.hideSecure (step s1) = seenThrough State.hideSecure (step s2)

/-- R21, R87, R130: on the PE's turn at EL2, or with SCR.NS 1, the step leaves the Secure cell and its IFAR unchanged. -/
def Obligations.NonSecureStepsKeepTheSecureCell : Prop :=
  ∀ s s' : State, peTurn s → nonSecureSide s → step s = .next s' →
    s'.cells.get .secure = s.cells.get .secure ∧ s'.ifars.get .secure = s.ifars.get .secure

/-- R39, R50, R54: a PE step that goes on writes no byte of memory, no IFAR and no context input, and advances pc by 4. -/
def Obligations.InstructionStepsTouchNoMemory : Prop :=
  ∀ s s' : State, peTurn s → step s = .next s' →
    (∀ a, memRead s'.mem a = memRead s.mem a) ∧ (∀ c, s'.ifars.get c = s.ifars.get c) ∧ s'.ctx = s.ctx ∧
      s'.pc = s.pc + 4#32

/-- R39, R53: a PE step that goes on leaves pc where an accessor of the current instruction set may stand. -/
def Obligations.PcStaysWhereAnAccessorMayStand : Prop :=
  ∀ s s' : State, peTurn s → step s = .next s' → mayStandAt s'.ctx.iset s'.pc = true
end

