-- ==== Sys2Proof/Laws/Decode.lean ====
section
/-! SUPPORT. Bytes and words: the two layouts of an instruction's bytes are each other's inverse. -/

namespace Sys2Proof

/-- A word laid out as bytes and read back is the word. -/
theorem bytesWord_wordBytes (iset : ISet) (order : ByteOrder) (w : Word) :
    ∃ b0 b1 b2 b3, wordBytes iset order w = [b0, b1, b2, b3] ∧ bytesWord iset order b0 b1 b2 b3 = w := by
  cases iset <;> cases order <;> refine ⟨_, _, _, _, rfl, ?_⟩ <;> simp only [bytesWord, byteOf] <;>
  · refine BitVec.eq_of_getLsbD_eq fun k hk => ?_
    simp only [BitVec.getLsbD_append, BitVec.getLsbD_extractLsb']
    interval_cases k <;> simp

/-- Four bytes read as a word and laid out again are the four bytes. -/
theorem wordBytes_bytesWord (iset : ISet) (order : ByteOrder) (b0 b1 b2 b3 : Byte) :
    wordBytes iset order (bytesWord iset order b0 b1 b2 b3) = [b0, b1, b2, b3] := by
  cases iset <;> cases order <;> simp only [wordBytes, bytesWord, byteOf, List.cons.injEq, and_true] <;>
  refine ⟨?_, ?_, ?_, ?_⟩ <;>
  · refine BitVec.eq_of_getLsbD_eq fun k hk => ?_
    simp only [BitVec.getLsbD_append, BitVec.getLsbD_extractLsb']
    interval_cases k <;> simp

/-- A word is its ten fields put together. -/
theorem word_of_fields (w : Word) :
    w = condField w ++ majorField w ++ opc1Field w ++ lField w ++ crnField w ++ rtField w ++ coprocField w ++
      opc2Field w ++ bit4Field w ++ crmField w := by
  refine BitVec.eq_of_getLsbD_eq fun k hk => ?_
  simp only [condField, majorField, opc1Field, lField, crnField, rtField, coprocField, opc2Field, bit4Field, crmField,
    BitVec.getLsbD_append, BitVec.getLsbD_extractLsb']
  interval_cases k <;> simp

/-- A word that carries IFSR's tuple is determined by its condition, L and Rt. -/
theorem word_of_carriesIfsr (w : Word) (h : carriesIfsr w = true) :
    w = accessorWord (condField w) (lField w) (rtField w) := by
  have hw := word_of_fields w
  simp only [carriesIfsr, tupleOf, ifsrTuple, Bool.and_eq_true, beq_iff_eq, SysRegTuple.mk.injEq] at h
  obtain ⟨⟨h1, h2⟩, h3, h4, h5, h6, h7⟩ := h
  rw [h1, h2, h3, h4, h5, h6, h7] at hw
  exact hw

/-- Every encoding is four bytes long. -/
theorem encode_length (order : ByteOrder) (i : Instr) : (encode order i).length = 4 := by
  obtain ⟨b0, b1, b2, b3, h, _⟩ := bytesWord_wordBytes i.iset order (encodeWord i)
  simp [encode, h]

end Sys2Proof
end

