-- ==== Sys2Proof/Laws/Memory.lean ====
section
/-! SUPPORT. The laws of the instruction memory: reading what was written, the canonical form and what keeps it. -/

namespace Sys2Proof.Machine

/-- A read after a write: the byte written at its address, every other address as before. -/
theorem memRead_memWrite (m : Memory) (lo a x : Nat) (b : Byte) (h : memRising lo m = true) :
    memRead (memWrite m a b) x = if x = a then some b else memRead m x := by
  induction m generalizing lo with
  | nil =>
    by_cases hx : x = a
    · simp [memWrite, memRead, hx]
    · simp [memWrite, memRead, hx, Ne.symm hx]
  | cons p rest ih =>
    obtain ⟨y, c⟩ := p
    simp only [memRising, Bool.and_eq_true, decide_eq_true_eq] at h
    unfold memWrite
    by_cases h1 : a < y
    · simp only [h1, if_true, memRead]
      by_cases hx : x = a
      · simp [hx]
      · simp [hx, Ne.symm hx]
    · by_cases h2 : a = y
      · subst h2
        by_cases hx : x = a
        · simp [memRead, hx]
        · simp [memRead, hx, Ne.symm hx]
      · simp only [h1, if_false, h2, memRead]
        by_cases hx : x = a
        · subst hx
          have hy : y ≠ x := fun e => h2 e.symm
          simpa [hy] using ih (y + 1) h.2
        · by_cases hy : y = x
          · simp [hy, hx]
          · simpa [hy, hx] using ih (y + 1) h.2

/-- Addresses rising from a bound rise from any smaller one. -/
theorem memRising_mono (m : Memory) (lo lo' : Nat) (hle : lo' ≤ lo) (h : memRising lo m = true) :
    memRising lo' m = true := by
  cases m with
  | nil => rfl
  | cons p rest =>
    simp only [memRising, Bool.and_eq_true, decide_eq_true_eq] at h ⊢
    exact ⟨⟨le_trans hle h.1.1, h.1.2⟩, h.2⟩

/-- Writing at an address from the bound on keeps addresses rising. -/
theorem memRising_memWrite (m : Memory) (lo a : Nat) (b : Byte) (hlo : lo ≤ a) (ha : a < 2 ^ 32)
    (h : memRising lo m = true) : memRising lo (memWrite m a b) = true := by
  induction m generalizing lo with
  | nil =>
    unfold memWrite memRising
    rw [Bool.and_eq_true, Bool.and_eq_true]
    exact ⟨⟨decide_eq_true hlo, decide_eq_true ha⟩, rfl⟩
  | cons p rest ih =>
    obtain ⟨y, c⟩ := p
    rw [memRising, Bool.and_eq_true, Bool.and_eq_true, decide_eq_true_eq, decide_eq_true_eq] at h
    obtain ⟨⟨h1, h2⟩, h3⟩ := h
    unfold memWrite
    split
    · rename_i hlt
      rw [memRising, memRising]
      simp only [Bool.and_eq_true, decide_eq_true_eq]
      exact ⟨⟨hlo, ha⟩, ⟨hlt, h2⟩, h3⟩
    · split
      · rename_i heq
        subst heq
        rw [memRising]
        simp only [Bool.and_eq_true, decide_eq_true_eq]
        exact ⟨⟨hlo, ha⟩, h3⟩
      · rename_i hge hne
        rw [memRising]
        simp only [Bool.and_eq_true, decide_eq_true_eq]
        exact ⟨⟨h1, h2⟩, ih (y + 1) (by omega) h3⟩

/-- Writing a byte at a 32-bit address keeps the canonical form. -/
theorem Memory.wf_memWrite (m : Memory) (a : Word) (b : Byte) (h : Memory.wf m = true) :
    Memory.wf (memWrite m a.toNat b) = true :=
  memRising_memWrite m 0 a.toNat b (Nat.zero_le _) a.isLt h

/-- Writing bytes one after the other keeps the canonical form. -/
theorem Memory.wf_memWriteList (bytes : List Byte) (m : Memory) (a : Word) (h : Memory.wf m = true) :
    Memory.wf (memWriteList m a bytes) = true := by
  induction bytes generalizing m a with
  | nil => exact h
  | cons b rest ih => exact ih _ _ (Memory.wf_memWrite m a b h)

/-- Placing an instruction keeps the canonical form. -/
theorem Memory.wf_placeWord (s : State) (iset : ISet) (v : Word) (h : Memory.wf s.mem = true) :
    Memory.wf (placeWord s iset v).mem = true :=
  Memory.wf_memWriteList _ _ _ h

/-- The memory at reset is in canonical form. -/
theorem Memory.wf_reset : Memory.wf State.reset.mem = true := rfl

/-- A memory whose addresses rise from a bound has no byte below it. -/
theorem memRead_below (m : Memory) (lo a : Nat) (h : memRising lo m = true) (ha : a < lo) : memRead m a = none := by
  induction m generalizing lo with
  | nil => rfl
  | cons p rest ih =>
    obtain ⟨y, c⟩ := p
    rw [memRising, Bool.and_eq_true, Bool.and_eq_true, decide_eq_true_eq, decide_eq_true_eq] at h
    have hne : y ≠ a := by omega
    simp only [memRead, hne, if_false]
    exact ih (y + 1) h.2 (by omega)

/-- The form is canonical: memories that read alike at every address are equal data. -/
theorem memory_ext (m n : Memory) (lo : Nat) (hm : memRising lo m = true) (hn : memRising lo n = true)
    (h : ∀ a, memRead m a = memRead n a) : m = n := by
  induction m generalizing n lo with
  | nil =>
    cases n with
    | nil => rfl
    | cons q rest => have := h q.1; simp [memRead] at this
  | cons p rest ih =>
    cases n with
    | nil => have := h p.1; simp [memRead] at this
    | cons q rest' =>
      obtain ⟨x, c⟩ := p
      obtain ⟨y, d⟩ := q
      rw [memRising, Bool.and_eq_true, Bool.and_eq_true] at hm hn
      have hxy : x = y := by
        rcases Nat.lt_trichotomy x y with hlt | heq | hgt
        · have hx := h x
          have hne : y ≠ x := by omega
          simp only [memRead, if_true, hne, if_false] at hx
          rw [memRead_below rest' (y + 1) x hn.2 (by omega)] at hx
          exact absurd hx (by simp)
        · exact heq
        · have hy := h y
          have hne : x ≠ y := by omega
          simp only [memRead, if_true, hne, if_false] at hy
          rw [memRead_below rest (x + 1) y hm.2 (by omega)] at hy
          exact absurd hy (by simp)
      subst hxy
      have hcd : c = d := by simpa [memRead] using h x
      subst hcd
      have hrest : rest = rest' := by
        refine ih rest' (x + 1) hm.2 hn.2 fun a => ?_
        by_cases ha : x = a
        · subst ha
          rw [memRead_below rest (x + 1) x hm.2 (by omega), memRead_below rest' (x + 1) x hn.2 (by omega)]
        · simpa [memRead, ha] using h a
      rw [hrest]

end Sys2Proof.Machine
end

