-- ==== Sys2Proof/Laws/State.lean ====
section
/-! SUPPORT. One lemma per field per update of the state, and the laws of reading what was written. -/

namespace Sys2Proof.Machine

section Fields
variable (s : State) (v target : Word) (t : Fin 15) (c : CellName) (x : Context) (m : Memory) (l : List Turn) (n : Nat)

@[simp] theorem State.advance_cfg : s.advance.cfg = s.cfg := rfl
@[simp] theorem State.advance_gpr : s.advance.gpr = s.gpr := rfl
@[simp] theorem State.advance_pc : s.advance.pc = s.pc + 4#32 := rfl
@[simp] theorem State.advance_ctx : s.advance.ctx = s.ctx := rfl
@[simp] theorem State.advance_cells : s.advance.cells = s.cells := rfl
@[simp] theorem State.advance_ifars : s.advance.ifars = s.ifars := rfl
@[simp] theorem State.advance_mem : s.advance.mem = s.mem := rfl
@[simp] theorem State.advance_schedule : s.advance.schedule = s.schedule := rfl
@[simp] theorem State.advance_draws : s.advance.draws = s.draws := rfl

@[simp] theorem State.setPc_cfg : (s.setPc target).cfg = s.cfg := rfl
@[simp] theorem State.setPc_gpr : (s.setPc target).gpr = s.gpr := rfl
@[simp] theorem State.setPc_pc : (s.setPc target).pc = target := rfl
@[simp] theorem State.setPc_ctx : (s.setPc target).ctx = s.ctx := rfl
@[simp] theorem State.setPc_cells : (s.setPc target).cells = s.cells := rfl
@[simp] theorem State.setPc_ifars : (s.setPc target).ifars = s.ifars := rfl
@[simp] theorem State.setPc_mem : (s.setPc target).mem = s.mem := rfl
@[simp] theorem State.setPc_schedule : (s.setPc target).schedule = s.schedule := rfl
@[simp] theorem State.setPc_draws : (s.setPc target).draws = s.draws := rfl

@[simp] theorem State.setCtx_cfg : (s.setCtx x).cfg = s.cfg := rfl
@[simp] theorem State.setCtx_gpr : (s.setCtx x).gpr = s.gpr := rfl
@[simp] theorem State.setCtx_pc : (s.setCtx x).pc = s.pc := rfl
@[simp] theorem State.setCtx_ctx : (s.setCtx x).ctx = x := rfl
@[simp] theorem State.setCtx_cells : (s.setCtx x).cells = s.cells := rfl
@[simp] theorem State.setCtx_ifars : (s.setCtx x).ifars = s.ifars := rfl
@[simp] theorem State.setCtx_mem : (s.setCtx x).mem = s.mem := rfl
@[simp] theorem State.setCtx_schedule : (s.setCtx x).schedule = s.schedule := rfl
@[simp] theorem State.setCtx_draws : (s.setCtx x).draws = s.draws := rfl

@[simp] theorem State.setMem_cfg : (s.setMem m).cfg = s.cfg := rfl
@[simp] theorem State.setMem_gpr : (s.setMem m).gpr = s.gpr := rfl
@[simp] theorem State.setMem_pc : (s.setMem m).pc = s.pc := rfl
@[simp] theorem State.setMem_ctx : (s.setMem m).ctx = s.ctx := rfl
@[simp] theorem State.setMem_cells : (s.setMem m).cells = s.cells := rfl
@[simp] theorem State.setMem_ifars : (s.setMem m).ifars = s.ifars := rfl
@[simp] theorem State.setMem_mem : (s.setMem m).mem = m := rfl
@[simp] theorem State.setMem_schedule : (s.setMem m).schedule = s.schedule := rfl
@[simp] theorem State.setMem_draws : (s.setMem m).draws = s.draws := rfl

@[simp] theorem State.setSchedule_cfg : (s.setSchedule l).cfg = s.cfg := rfl
@[simp] theorem State.setSchedule_gpr : (s.setSchedule l).gpr = s.gpr := rfl
@[simp] theorem State.setSchedule_pc : (s.setSchedule l).pc = s.pc := rfl
@[simp] theorem State.setSchedule_ctx : (s.setSchedule l).ctx = s.ctx := rfl
@[simp] theorem State.setSchedule_cells : (s.setSchedule l).cells = s.cells := rfl
@[simp] theorem State.setSchedule_ifars : (s.setSchedule l).ifars = s.ifars := rfl
@[simp] theorem State.setSchedule_mem : (s.setSchedule l).mem = s.mem := rfl
@[simp] theorem State.setSchedule_schedule : (s.setSchedule l).schedule = l := rfl
@[simp] theorem State.setSchedule_draws : (s.setSchedule l).draws = s.draws := rfl

@[simp] theorem State.drawn_cfg : (s.drawn n).cfg = s.cfg := rfl
@[simp] theorem State.drawn_gpr : (s.drawn n).gpr = s.gpr := rfl
@[simp] theorem State.drawn_pc : (s.drawn n).pc = s.pc := rfl
@[simp] theorem State.drawn_ctx : (s.drawn n).ctx = s.ctx := rfl
@[simp] theorem State.drawn_cells : (s.drawn n).cells = s.cells := rfl
@[simp] theorem State.drawn_ifars : (s.drawn n).ifars = s.ifars := rfl
@[simp] theorem State.drawn_mem : (s.drawn n).mem = s.mem := rfl
@[simp] theorem State.drawn_schedule : (s.drawn n).schedule = s.schedule := rfl
@[simp] theorem State.drawn_draws : (s.drawn n).draws = s.draws + n := rfl

@[simp] theorem State.writeReg_cfg : (s.writeReg t v).cfg = s.cfg := rfl
@[simp] theorem State.writeReg_gpr : (s.writeReg t v).gpr = s.gpr.set t v := rfl
@[simp] theorem State.writeReg_pc : (s.writeReg t v).pc = s.pc := rfl
@[simp] theorem State.writeReg_ctx : (s.writeReg t v).ctx = s.ctx := rfl
@[simp] theorem State.writeReg_cells : (s.writeReg t v).cells = s.cells := rfl
@[simp] theorem State.writeReg_ifars : (s.writeReg t v).ifars = s.ifars := rfl
@[simp] theorem State.writeReg_mem : (s.writeReg t v).mem = s.mem := rfl
@[simp] theorem State.writeReg_schedule : (s.writeReg t v).schedule = s.schedule := rfl
@[simp] theorem State.writeReg_draws : (s.writeReg t v).draws = s.draws := rfl

@[simp] theorem State.writeCell_cfg : (s.writeCell c v).cfg = s.cfg := rfl
@[simp] theorem State.writeCell_gpr : (s.writeCell c v).gpr = s.gpr := rfl
@[simp] theorem State.writeCell_pc : (s.writeCell c v).pc = s.pc := rfl
@[simp] theorem State.writeCell_ctx : (s.writeCell c v).ctx = s.ctx := rfl
@[simp] theorem State.writeCell_cells : (s.writeCell c v).cells = s.cells.set c v := rfl
@[simp] theorem State.writeCell_ifars : (s.writeCell c v).ifars = s.ifars := rfl
@[simp] theorem State.writeCell_mem : (s.writeCell c v).mem = s.mem := rfl
@[simp] theorem State.writeCell_schedule : (s.writeCell c v).schedule = s.schedule := rfl
@[simp] theorem State.writeCell_draws : (s.writeCell c v).draws = s.draws := rfl

@[simp] theorem State.writeIfar_cfg : (s.writeIfar c v).cfg = s.cfg := rfl
@[simp] theorem State.writeIfar_gpr : (s.writeIfar c v).gpr = s.gpr := rfl
@[simp] theorem State.writeIfar_pc : (s.writeIfar c v).pc = s.pc := rfl
@[simp] theorem State.writeIfar_ctx : (s.writeIfar c v).ctx = s.ctx := rfl
@[simp] theorem State.writeIfar_cells : (s.writeIfar c v).cells = s.cells := rfl
@[simp] theorem State.writeIfar_ifars : (s.writeIfar c v).ifars = s.ifars.set c v := rfl
@[simp] theorem State.writeIfar_mem : (s.writeIfar c v).mem = s.mem := rfl
@[simp] theorem State.writeIfar_schedule : (s.writeIfar c v).schedule = s.schedule := rfl
@[simp] theorem State.writeIfar_draws : (s.writeIfar c v).draws = s.draws := rfl

end Fields

/-! ## Banks -/

@[simp] theorem Bank.get_set_same (b : Bank) (c : CellName) (v : Word) : (b.set c v).get c = v := by
  cases c <;> rfl

theorem Bank.get_set_other (b : Bank) (c d : CellName) (v : Word) (h : d ≠ c) : (b.set c v).get d = b.get d := by
  cases c <;> cases d <;> first | rfl | exact absurd rfl h

theorem Bank.get_set (b : Bank) (c d : CellName) (v : Word) :
    (b.set c v).get d = if d = c then v else b.get d := by
  split
  · rename_i h; subst h; exact Bank.get_set_same b d v
  · rename_i h; exact Bank.get_set_other b c d v h

/-- Two banks with the same value under every name are the same. -/
theorem Bank.ext_get (b d : Bank) (h : ∀ c, b.get c = d.get c) : b = d := by
  have h1 := h .single
  have h2 := h .secure
  have h3 := h .nonsecure
  cases b; cases d
  simp only [Bank.get] at h1 h2 h3
  simp [h1, h2, h3]

@[simp] theorem Bank.set_set (b : Bank) (c : CellName) (v w : Word) : (b.set c v).set c w = b.set c w := by
  cases c <;> rfl

/-! ## Registers -/

@[simp] theorem State.readReg_writeReg_same (s : State) (t : Fin 15) (v : Word) : (s.writeReg t v).readReg t = v := by
  simp [State.readReg]

theorem State.readReg_writeReg_other (s : State) (t u : Fin 15) (v : Word) (h : u ≠ t) :
    (s.writeReg t v).readReg u = s.readReg u := by
  have h' : t.val ≠ u.val := fun e => h (Fin.ext e.symm)
  simp [State.readReg, h']

/-! ## Cells read after updates -/

theorem State.readCell_writeCell (s : State) (c d : CellName) (v : Word) :
    (s.writeCell c v).readCell d = if d = c then v else s.readCell d := Bank.get_set s.cells c d v

theorem State.readIfar_writeIfar (s : State) (c d : CellName) (v : Word) :
    (s.writeIfar c v).readIfar d = if d = c then v else s.readIfar d := Bank.get_set s.ifars c d v

end Sys2Proof.Machine
end

