-- ==== Sys2Proof/Laws/Ops.lean ====
section
/-! SUPPORT. For each shared operation, one lemma that says once everything it can do. -/

namespace Sys2Proof.Machine

/-- An access that may be made passed its check, and its cell is the selected one. -/
theorem authorise_ok (k : AccessKind) (s : State) (c : CellName) (h : authorise k s = .ok c) :
    accessCheck k s.cfg s.ctx = none ∧ selectCell s.cfg s.ctx = some c := by
  unfold authorise at h
  split at h <;> cases h
  exact ⟨by assumption, by assumption⟩

/-- Outside EL0 a cell is selected. -/
theorem selectCell_isSome (cfg : Config) (x : Context) (h : x.el ≠ .el0) : ∃ c, selectCell cfg x = some c := by
  unfold selectCell
  cases hel : x.el
  · exact absurd hel h
  all_goals exact ⟨_, rfl⟩

/-- The check passes outside EL0 only. -/
theorem accessCheck_none_el (k : AccessKind) (cfg : Config) (x : Context) (h : accessCheck k cfg x = none) :
    x.el ≠ .el0 := by
  intro hel
  simp [accessCheck, hel] at h

/-- An access that may not be made: its check does not pass, and the stop is the check's. -/
theorem authorise_error (k : AccessKind) (s : State) (f : Fault) (h : authorise k s = .error f) :
    accessCheck k s.cfg s.ctx = some f := by
  unfold authorise at h
  split at h
  · cases h; assumption
  · cases h
  · rename_i h1 h2
    obtain ⟨c, hc⟩ := selectCell_isSome s.cfg s.ctx (accessCheck_none_el k s.cfg s.ctx h1)
    rw [hc] at h2
    cases h2

/-- A passing check and a selected cell authorise the access. -/
theorem authorise_of (k : AccessKind) (s : State) (c : CellName) (h1 : accessCheck k s.cfg s.ctx = none)
    (h2 : selectCell s.cfg s.ctx = some c) : authorise k s = .ok c := by
  simp [authorise, h1, h2]

/-- A check that does not pass is the answer of the authorisation. -/
theorem authorise_of_fault (k : AccessKind) (s : State) (f : Fault) (h : accessCheck k s.cfg s.ctx = some f) :
    authorise k s = .error f := by
  simp [authorise, h]

/-- The check passes exactly where the context permits the access (70_reset_and_hazards.md R147). -/
theorem accessCheck_none_iff (k : AccessKind) (cfg : Config) (x : Context) :
    accessCheck k cfg x = none ↔ permitted k cfg x := by
  rcases x with ⟨el, e2, ns, t5, t5a64, trvm, trvma64, tvm, tvma64, fmt, iset, cp⟩
  rcases cfg with ⟨h3, a3, a2, ras, lock, ext, ws, wl, order⟩
  cases el <;> cases e2 <;> cases a2 <;> cases k <;>
    simp [accessCheck, permitted, t5Bit, vmBit, vmTrapA32, vmTrapA64]
  all_goals (repeat' split) <;> simp_all

/-- Everything an accessor can do when it goes on: the transfer and the advance of pc, the advance alone under a failed
condition, or that with a free choice drawn where the access would have stopped. -/
theorem accessor_next (k : AccessKind) (transfer : CellName → State → State) (s s' : State)
    (h : accessor k transfer s = .next s') :
    (s.ctx.conditionPassed = true ∧ accessCheck k s.cfg s.ctx = none ∧
      ∃ c, selectCell s.cfg s.ctx = some c ∧ s' = (transfer c s).advance) ∨
    (s.ctx.conditionPassed = false ∧ accessCheck k s.cfg s.ctx = none ∧ s' = s.advance) ∨
    (s.ctx.conditionPassed = false ∧ (∃ f, accessCheck k s.cfg s.ctx = some f) ∧ s' = s.advance.drawn 1) := by
  unfold accessor at h
  split at h
  · rename_i c hc
    obtain ⟨h1, h2⟩ := authorise_ok k s c hc
    split at h
    · rename_i hp
      cases h
      exact .inl ⟨hp, h1, c, h2, rfl⟩
    · rename_i hp
      cases h
      exact .inr (.inl ⟨by simpa [State.conditionPassed] using hp, h1, rfl⟩)
  · rename_i f hf
    split at h
    · cases h
    · rename_i hp
      cases h
      simp only [Bool.or_eq_true, not_or, Bool.not_eq_true] at hp
      exact .inr (.inr ⟨hp.1, ⟨f, authorise_error k s f hf⟩, rfl⟩)

/-- An accessor that faults raises its access check's answer. -/
theorem accessor_fault (k : AccessKind) (transfer : CellName → State → State) (s : State) (f : Fault)
    (h : accessor k transfer s = .fault f) : accessCheck k s.cfg s.ctx = some f := by
  unfold accessor at h
  split at h
  · split at h <;> cases h
  · rename_i g hg
    split at h
    · cases h; exact authorise_error k s f hg
    · cases h

/-- An accessor is never refused. -/
theorem accessor_not_refused (k : AccessKind) (transfer : CellName → State → State) (s : State) (r : Refusal) :
    accessor k transfer s ≠ .refused r := by
  unfold accessor raise
  split <;> split <;> simp

/-- A field names a register unless it is 15. -/
theorem regOf_eq_some (rt : BitVec 4) (h : rt ≠ 15#4) : ∃ t : Fin 15, regOf rt = some t ∧ t.val = rt.toNat := by
  have hlt : rt.toNat < 15 := by
    have h16 := rt.isLt
    have hne : rt.toNat ≠ 15 := fun e => h (BitVec.eq_of_toNat_eq e)
    omega
  exact ⟨⟨rt.toNat, hlt⟩, by simp [regOf, hlt], rfl⟩

/-- Field 15 names none. -/
theorem regOf_fifteen : regOf 15#4 = none := by decide

/-- Everything the read accessor can do when it goes on. -/
theorem readAccessor_next (rt : BitVec 4) (s s' : State) (h : readAccessor rt s = .next s') :
    ∃ t, regOf rt = some t ∧
      accessor .read (fun c s => s.writeReg t (s.readCell c)) s = .next s' := by
  unfold readAccessor at h
  split at h
  · cases h
  · exact ⟨_, by assumption, h⟩

/-- Everything the write accessor can do when it goes on. -/
theorem writeAccessor_next (rt : BitVec 4) (s s' : State) (h : writeAccessor rt s = .next s') :
    ∃ t, regOf rt = some t ∧
      accessor .write (fun c s => s.writeCell c (directValue s.cfg s.ctx.fmt (s.readReg t))) s = .next s' := by
  unfold writeAccessor at h
  split at h
  · cases h
  · exact ⟨_, by assumption, h⟩

/-- A condition field other than 0b1111 leaves the accessor as it is. -/
theorem underA32Condition_of (cond : BitVec 4) (run : State → Answer) (s : State) (h : cond ≠ 0b1111#4) :
    underA32Condition cond run s = run s := by
  simp [underA32Condition, h]

/-- Condition field 0b1111 goes on with nothing. -/
theorem underA32Condition_next (cond : BitVec 4) (run : State → Answer) (s s' : State)
    (h : underA32Condition cond run s = .next s') : cond ≠ 0b1111#4 ∧ run s = .next s' := by
  unfold underA32Condition at h
  split at h
  · cases h
  · exact ⟨by assumption, h⟩

/-- An instruction that goes on is the read or the write accessor of its register field. -/
theorem exec_next (i : Instr) (s s' : State) (h : exec i s = .next s') :
    readAccessor i.rt s = .next s' ∨ writeAccessor i.rt s = .next s' := by
  cases i with
  | mrcA32 cond rt => exact .inl (underA32Condition_next cond _ s s' h).2
  | mcrA32 cond rt => exact .inr (underA32Condition_next cond _ s s' h).2
  | mrcT32 rt => exact .inl h
  | mcrT32 rt => exact .inr h

/-- A well-formed reading instruction is the read accessor of its register field. -/
theorem exec_of_read (i : Instr) (s : State) (h : i.wf = true) (k : accessKindOf i = .read) :
    exec i s = readAccessor i.rt s := by
  cases i <;>
    simp_all [accessKindOf, Instr.wf, condAdmitted, exec, execMrcA32, execMrcT32, Instr.rt, underA32Condition]

/-- A well-formed writing instruction is the write accessor of its register field. -/
theorem exec_of_write (i : Instr) (s : State) (h : i.wf = true) (k : accessKindOf i = .write) :
    exec i s = writeAccessor i.rt s := by
  cases i <;>
    simp_all [accessKindOf, Instr.wf, condAdmitted, exec, execMcrA32, execMcrT32, Instr.rt, underA32Condition]

/-- Everything the status word of a fault can be: the layout's packing of the cause's code. -/
theorem statusWord_some (cfg : Config) (fmt : Fmt) (r : FaultReport) (v : Word) (h : statusWord cfg fmt r = some v) :
    (fmt = .short ∧ ∃ fs, fsOf cfg r.cause = some fs ∧
      v = packA fs (fnvBit r.cause r.fnvIn) (extBit cfg r.cause r.extIn)) ∨
    (fmt = .long ∧ ∃ st, statusOf cfg r.cause = some st ∧
      v = packB st (fnvBit r.cause r.fnvIn) (extBit cfg r.cause r.extIn)) := by
  cases fmt <;> simp only [statusWord, Option.map_eq_some_iff] at h <;> obtain ⟨c, hc, rfl⟩ := h
  · exact .inl ⟨rfl, c, hc, rfl⟩
  · exact .inr ⟨rfl, c, hc, rfl⟩

/-- Everything the hardware write can do when it goes on: it writes the target cell with the fault's status, and IFAR. -/
theorem reportInstructionFault_next (r : FaultReport) (s s' : State) (h : reportInstructionFault r s = .next s') :
    ∃ v, statusWord s.cfg s.ctx.fmt r = some v ∧ s' = reportIfar r (s.writeCell r.cell v) := by
  unfold reportInstructionFault at h
  split at h
  · cases h
  · cases h; exact ⟨_, by assumption, rfl⟩

/-- Everything the write of IFAR can do. -/
theorem reportIfar_cases (r : FaultReport) (s : State) :
    (fnvBit r.cause r.fnvIn = 1#1 ∧ reportIfar r s = (s.writeIfar r.cell (Config.unknown32 s.draws)).drawn 1) ∨
    (fnvBit r.cause r.fnvIn = 0#1 ∧ reportIfar r s = s.writeIfar r.cell r.faultAddress) := by
  unfold reportIfar
  split
  · exact .inl ⟨by assumption, rfl⟩
  · rename_i h
    refine .inr ⟨?_, rfl⟩
    generalize fnvBit r.cause r.fnvIn = b at h
    revert h
    revert b
    decide

/-- Everything a step of the environment can do when it goes on. -/
theorem environmentStep_next (e : EnvEvent) (s s' : State) (h : environmentStep e s = .next s') :
    (∃ r v, e = .instructionFault r ∧ statusWord s.cfg s.ctx.fmt r = some v ∧
      s' = reportIfar r (s.writeCell r.cell v)) ∨
    (∃ start vector, e = .reset start vector ∧ s' = resetPE start vector s) ∨
    (∃ c, e = .context c ∧ s' = s.setCtx c) ∨
    (∃ target, e = .transfer target ∧ s' = s.setPc target) ∨
    (∃ t v, e = .register t v ∧ s' = s.writeReg t v) ∨
    (∃ a b, e = .memoryByte a b ∧ s' = s.setMem (memWrite s.mem a.toNat b)) ∨
    (∃ v, e = .ifsr32El2Write v ∧ s' = s.writeCell (aarch64Cell s.cfg) v) := by
  cases e with
  | instructionFault r =>
    obtain ⟨v, hv, hs⟩ := reportInstructionFault_next r s s' h
    exact .inl ⟨r, v, rfl, hv, hs⟩
  | reset start vector => cases h; simp
  | context c => cases h; simp
  | transfer target => cases h; simp
  | register t v => cases h; simp
  | memoryByte a b => cases h; simp
  | ifsr32El2Write v => cases h; simp

/-- A fetch that succeeds decoded four bytes in the current instruction set, at a place where an accessor may stand. -/
theorem fetch_next (s : State) (i : Instr) (h : fetch s = .next i) :
    mayStandAt s.ctx.iset s.pc = true ∧
      ∃ bytes rest, fetchBytes s = .next bytes ∧ decode s.ctx.iset s.cfg.fetchByteOrder bytes = .ok (i, rest) := by
  unfold fetch at h
  split at h
  · rename_i hp
    refine ⟨hp, ?_⟩
    split at h
    · cases h
    · cases h
    · rename_i bytes hb
      split at h
      · rename_i j rest hd
        cases h
        exact ⟨bytes, rest, hb, hd⟩
      · cases h
  · cases h

/-- The PE's step that goes on executed a fetched instruction. -/
theorem instructionStep_next (s s' : State) (h : instructionStep s = .next s') :
    ∃ i, fetch s = .next i ∧ exec i s = .next s' := by
  unfold instructionStep at h
  split at h
  · exact ⟨_, by assumption, h⟩
  · cases h
  · cases h

/-- On the PE's turn a step is the instruction step of the state with the turn used up. -/
theorem step_of_peTurn (s : State) (h : peTurn s) : step s = instructionStep (afterTurn s) := by
  cases hs : s.schedule with
  | nil =>
    have he : afterTurn s = s := by
      unfold afterTurn State.setSchedule
      rw [hs]
      show { s with schedule := [] } = s
      rw [← hs]
    rw [he]
    simp [step, hs]
  | cons t rest =>
    rw [peTurn, hs] at h
    rcases h with h | h <;> cases h
    simp [step, hs, afterTurn]

/-- Everything a step can do when it goes on: an instruction on the PE's turn, or a step of the environment. -/
theorem step_next (s s' : State) (h : step s = .next s') :
    (peTurn s ∧ ∃ i, fetch (afterTurn s) = .next i ∧ exec i (afterTurn s) = .next s') ∨
    (∃ e rest, s.schedule = .environment e :: rest ∧ environmentStep e (s.setSchedule rest) = .next s') := by
  cases hs : s.schedule with
  | nil =>
    have hp : peTurn s := .inl hs
    rw [step_of_peTurn s hp] at h
    exact .inl ⟨hp, instructionStep_next _ _ h⟩
  | cons t rest =>
    cases t with
    | instruction =>
      have hp : peTurn s := .inr (by rw [hs]; rfl)
      rw [step_of_peTurn s hp] at h
      exact .inl ⟨hp, instructionStep_next _ _ h⟩
    | environment e =>
      refine .inr ⟨e, rest, rfl, ?_⟩
      simpa [step, hs] using h

/-- The induction over runs, once: what holds at reset under every schedule and is kept by every step holds of every
reachable state. -/
theorem Reachable.induct_on_steps (P : State → Prop) (h0 : ∀ turns, P (State.reset.setSchedule turns))
    (hs : ∀ s s', P s → step s = .next s' → P s') (s : State) (h : Reachable s) : P s := by
  induction h with
  | start turns => exact h0 turns
  | next s s' _ hstep ih => exact hs s s' ih hstep

/-- What the accessors leave unchanged when they go on: configuration, context, memory, IFAR, schedule; pc advances. -/
theorem exec_frame (i : Instr) (s s' : State) (h : exec i s = .next s') :
    s'.cfg = s.cfg ∧ s'.ctx = s.ctx ∧ s'.mem = s.mem ∧ s'.ifars = s.ifars ∧ s'.schedule = s.schedule ∧
      s'.pc = s.pc + 4#32 := by
  rcases exec_next i s s' h with h | h
  · obtain ⟨t, _, ha⟩ := readAccessor_next _ s s' h
    rcases accessor_next _ _ s s' ha with ⟨_, _, c, _, rfl⟩ | ⟨_, _, rfl⟩ | ⟨_, _, rfl⟩ <;> simp
  · obtain ⟨t, _, ha⟩ := writeAccessor_next _ s s' h
    rcases accessor_next _ _ s s' ha with ⟨_, _, c, _, rfl⟩ | ⟨_, _, rfl⟩ | ⟨_, _, rfl⟩ <;> simp

end Sys2Proof.Machine
end

