-- ==== Sys2Proof/Laws/PerInstr.lean ====
section
/-! SUPPORT. The family RowMatch: an instruction's encoded word has the fixed bits of its row of spec/opcode_table.json and
carries its own register field and condition, whether it is well-formed or not. -/

namespace Sys2Proof.Laws.RowMatch

/-- The mask of an instruction's row (30_encoding.md R66). -/
def rowMask : Instr → Word
  | .mrcA32 _ _ => 0x0FFF0FFF#32
  | .mcrA32 _ _ => 0x0FFF0FFF#32
  | .mrcT32 _ => 0xFFFF0FFF#32
  | .mcrT32 _ => 0xFFFF0FFF#32

/-- The match value of an instruction's row (R66). -/
def rowMatch : Instr → Word
  | .mrcA32 _ _ => 0x0E150F30#32
  | .mcrA32 _ _ => 0x0E050F30#32
  | .mrcT32 _ => 0xEE150F30#32
  | .mcrT32 _ => 0xEE050F30#32

/-- The encoded word matches the row, and its free bits are the instruction's fields. -/
def Statement (i : Instr) : Prop :=
  encodeWord i &&& rowMask i = rowMatch i ∧ rtField (encodeWord i) = i.rt ∧ condField (encodeWord i) = i.cond

/-- The fields of a word put together from its parts. -/
theorem accessorWord_fields : ∀ (cond : BitVec 4) (l : BitVec 1) (rt : BitVec 4),
    accessorWord cond l rt &&& 0x0FEF0FFF#32 = 0x0E050F30#32 ∧ rtField (accessorWord cond l rt) = rt ∧
      condField (accessorWord cond l rt) = cond ∧ lField (accessorWord cond l rt) = l := by
  decide

theorem mrcA32 (cond rt : BitVec 4) : Statement (.mrcA32 cond rt) := by
  revert cond rt; unfold Statement; decide

theorem mcrA32 (cond rt : BitVec 4) : Statement (.mcrA32 cond rt) := by
  revert cond rt; unfold Statement; decide

theorem mrcT32 (rt : BitVec 4) : Statement (.mrcT32 rt) := by
  revert rt; unfold Statement; decide

theorem mcrT32 (rt : BitVec 4) : Statement (.mcrT32 rt) := by
  revert rt; unfold Statement; decide

end Sys2Proof.Laws.RowMatch
end

