-- ==== Sys2Proof/Tests/Slice0.lean ====
section
/-! SUPPORT. Tests and witnesses. Expected values come from spec/95_test_vectors.md and the tables of the rules named; a
witness shows that a statement's hypotheses can be met, clause by clause. -/

namespace Sys2Proof.Tests

open Sys2Proof.Machine

/-! ## Small states -/

/-- No EL3, EL2 in AArch64, nothing hardwired. -/
def oneCell : Config :=
  { haveEL3 := false, el3A32 := false, el2A32 := false, haveRAS := false, haveLockdown := true, extClass := .classified,
    wiredShort := 0#32, wiredLong := 0#32, fetchByteOrder := .little }

/-- EL3 in AArch32: banked cells. -/
def twoCells : Config := { oneCell with haveEL3 := true, el3A32 := true }

/-- At EL1, untrapped. -/
def small : State :=
  { cfg := oneCell, gpr := (Vector.replicate 15 0#32).set 1 0x0000020D#32, pc := 0x1000#32, ctx := Context.atReset,
    cells := { single := 0x00000005#32, secure := 0x00000007#32, nonsecure := 0x0000020D#32 },
    ifars := { single := 0#32, secure := 0#32, nonsecure := 0#32 }, mem := [], schedule := [], draws := 3 }

def atLevel (s : State) (el : EL) : State := { s with ctx := { s.ctx with el := el } }
def withCfg (s : State) (cfg : Config) : State := { s with cfg := cfg }
def unpassed (s : State) : State := { s with ctx := { s.ctx with conditionPassed := false } }
def soon (s : State) (e : EnvEvent) : State := { s with schedule := [.environment e] }

/-- Banked cells at EL3. -/
def bankedEL3 : State := atLevel (withCfg small twoCells) .el3

/-- EL1 under an EL2 that traps by one bit, in AArch64 and in AArch32. -/
def guest (a32 : Bool) (t5 trvm tvm : BitVec 1) : State :=
  { small with
    cfg := { oneCell with el2A32 := a32 }
    ctx := { Context.atReset with
      el2Enabled := true, hstrT5 := t5, hstrEL2T5 := t5, hcrTRVM := trvm, hcrEL2TRVM := trvm, hcrTVM := tvm,
      hcrEL2TVM := tvm } }

/-- Does an answer go on to a state with this property? -/
def goesOn (a : Answer) (p : State → Bool) : Bool :=
  match a with
  | .next s => p s
  | .fault _ => false
  | .refused _ => false

/-- Does an answer stop with this fault? -/
def faults (a : Answer) (f : Fault) : Bool :=
  match a with
  | .next _ => false
  | .fault g => decide (g = f)
  | .refused _ => false

/-- A report with the given inputs in the single cell. -/
def report (c : Cause) (fnv ext : BitVec 1) : FaultReport :=
  { cause := c, fnvIn := fnv, extIn := ext, cell := .single, faultAddress := 0x00402000#32 }

/-! ## WellFormed refuses -/

theorem test_wf_rt_fifteen : (Instr.mrcA32 0b1110#4 15#4).wf = false ∧ (Instr.mcrA32 0b1110#4 15#4).wf = false ∧
    (Instr.mrcT32 15#4).wf = false ∧ (Instr.mcrT32 15#4).wf = false := by decide

theorem test_wf_cond_fifteen :
    (Instr.mrcA32 0b1111#4 0#4).wf = false ∧ (Instr.mcrA32 0b1111#4 0#4).wf = false := by decide

theorem test_wf_admits : (Instr.mrcA32 0b0000#4 14#4).wf = true ∧ (Instr.mcrT32 13#4).wf = true := by decide

/-! ## Decoding: words of 95_test_vectors.md section 6 -/

theorem test_decode_mrcA32 : decodeWord .a32 0b11101110000101011110111100110000#32 = .ok (.mrcA32 0b1110#4 14#4) := rfl
theorem test_decode_mcrA32 : decodeWord .a32 0b00011110000001010010111100110000#32 = .ok (.mcrA32 0b0001#4 2#4) := rfl
theorem test_decode_mrcT32 : decodeWord .t32 0b11101110000101010000111100110000#32 = .ok (.mrcT32 0#4) := rfl
theorem test_decode_mcrT32 : decodeWord .t32 0b11101110000001010011111100110000#32 = .ok (.mcrT32 3#4) := rfl

theorem test_decode_other_registers : ∀ w ∈ [0xEE150F10#32, 0xEE150F31#32, 0xEE160F30#32, 0xEE350F30#32, 0xEE150E30#32,
    0xEE150F50#32], decodeWord .a32 w = .error .notAnAccessor ∧ decodeWord .t32 w = .error .notAnAccessor := by
  simp only [List.forall_mem_cons]
  exact ⟨⟨rfl, rfl⟩, ⟨rfl, rfl⟩, ⟨rfl, rfl⟩, ⟨rfl, rfl⟩, ⟨rfl, rfl⟩, ⟨rfl, rfl⟩, by simp⟩

/-- In memory the halfword 0xEE15 comes first (section 6), each halfword in the fetch byte order (R52). -/
theorem test_decode_t32_bytes : decode .t32 .little [0x15#8, 0xEE#8, 0x30#8, 0x0F#8] = .ok (.mrcT32 0#4, []) := rfl

theorem test_decode_a32_bytes_big : decode .a32 .big [0xEE#8, 0x05#8, 0x1F#8, 0x30#8] = .ok (.mcrA32 0b1110#4 1#4, []) := rfl

theorem test_encode_worked_examples : encodeWord (.mrcA32 0b1110#4 0#4) = 0xEE150F30#32 ∧
    encodeWord (.mcrA32 0b1110#4 1#4) = 0xEE051F30#32 := by decide

/-- One word of each row of the opcode table, read as the table numbers it. -/
theorem test_table_rows : decodeTableWord 32 0x0E150F30 = some (.mrcA32 0#4 0#4) ∧
    decodeTableWord 32 0x0E050F30 = some (.mcrA32 0#4 0#4) ∧ decodeTableWord 32 0xEE150F30 = some (.mrcT32 0#4) ∧
    decodeTableWord 32 0xEE050F30 = some (.mcrT32 0#4) ∧ decodeTableWord 32 0xFE152F30 = none := by decide

/-- Each row runs as the first instruction after reset, and pc moves by 4 (R39). -/
theorem test_rows_run_after_reset : ∀ w ∈ [0x0E150F30, 0x0E050F30, 0xEE150F30, 0xEE050F30],
    goesOn (step (State.reset.withFetchWord 32 w)) (fun s => s.pc == 4#32) = true := by decide

theorem test_assembly : (Instr.mrcT32 4#4).assembly = some "MRC p15, 0, r4, c5, c0, 1" := by decide

/-! ## Accessor steps: 95_test_vectors.md sections 5 and 7 -/

theorem test_mrcA32_worked_example :
    goesOn (exec (.mrcA32 0b1110#4 0#4) small) (fun s => s.readReg 0 == 5#32 && s.pc == 0x1004#32) = true := by decide

theorem test_mrcA32_EL2_reads_nonsecure :
    goesOn (exec (.mrcA32 0b1110#4 4#4) (atLevel bankedEL3 .el2)) (fun s => s.readReg 4 == 0x20D#32) = true := by decide

theorem test_mrcT32_EL3_reads_secure :
    goesOn (exec (.mrcT32 4#4) bankedEL3) (fun s => s.readReg 4 == 7#32 && s.cells == small.cells) = true := by decide

theorem test_mrcT32_EL0 : faults (exec (.mrcT32 0#4) (atLevel small .el0)) .undefined = true := by decide

theorem test_mcrA32_worked_example :
    goesOn (exec (.mcrA32 0b1110#4 1#4) small) (fun s => s.readCell .single == 0x20D#32 && s.readReg 1 == 0x20D#32) = true := by
  decide

/-- P5: TVM alone traps a write to Hyp mode. -/
theorem test_mcrA32_TVM : faults (exec (.mcrA32 0b1110#4 1#4) (guest true 0#1 0#1 1#1)) (.trapHyp 0x03) = true := by decide

/-- Section 7, Write: all RES0 bits of layout A hardwired, R[1] all ones. -/
theorem test_mcrT32_hardwired :
    goesOn (exec (.mcrT32 1#4) { small.writeReg 1 0xFFFFFFFF#32 with cfg := { oneCell with wiredShort := 0xFFFFFFFF#32 } })
      (fun s => s.readCell .single == 0x0001160F#32) = true := by decide

theorem test_mcrT32_writes_secure_alone :
    goesOn (exec (.mcrT32 1#4) bankedEL3)
      (fun s => s.cells == { single := 5#32, secure := 0x20D#32, nonsecure := 0x20D#32 }) = true := by decide

theorem test_failed_condition :
    goesOn (exec (.mrcA32 0b0000#4 1#4) (unpassed small)) (fun s => s.readReg 1 == 0x20D#32 && s.pc == 0x1004#32) = true := by
  decide

/-! ## Fields, codes, the hardware write: sections 2 to 4 and the tables of R100 and R102 -/

theorem test_extract_12345678 : fnvOf 0x12345678#32 = 0#1 ∧ extOf 0x12345678#32 = 1#1 ∧ lpaeOf 0x12345678#32 = 1#1 ∧
    fsField 0x12345678#32 = 0b11000#5 ∧ statusField 0x12345678#32 = 0b111000#6 := by decide

theorem test_extract_43F : fsField 0x0000043F#32 = 0b11111#5 ∧ lpaeOf 0x0000043F#32 = 0#1 := by decide

theorem test_masks : res0Bits .short = ~~~(fieldBits .short) ∧ res0Bits .long = ~~~(fieldBits .long) := by decide

/-- The last column of R100's table, in its order. -/
theorem test_layout_A_values :
    [Cause.pcAlignment, .debug, .accessFlag .one, .translation .one, .accessFlag .two, .translation .two, .syncExternal,
      .domain .one, .domain .two, .syncExternalWalk .one, .permission .one, .syncExternalWalk .two, .permission .two,
      .tlbConflict, .lockdown, .syncParity, .syncParityWalk .one, .syncParityWalk .two].map
        (fun c => statusWord oneCell .short (report c 0#1 0#1)) =
      [0x1#32, 0x2#32, 0x3#32, 0x5#32, 0x6#32, 0x7#32, 0x8#32, 0x9#32, 0xB#32, 0xC#32, 0xD#32, 0xE#32, 0xF#32, 0x400#32,
        0x404#32, 0x409#32, 0x40C#32, 0x40E#32].map some := by decide

/-- The last column of R102's table, in its order. -/
theorem test_layout_B_values :
    [Cause.addressSizeBase, .addressSize .one, .addressSize .two, .addressSize .three, .translation .one,
      .translation .two, .translation .three, .accessFlag .one, .accessFlag .two, .accessFlag .three, .permission .one,
      .permission .two, .permission .three, .syncExternal, .syncExternalWalk .one, .syncExternalWalk .two,
      .syncExternalWalk .three, .syncParity, .syncParityWalk .one, .syncParityWalk .two, .syncParityWalk .three,
      .pcAlignment, .debug, .tlbConflict].map (fun c => statusWord oneCell .long (report c 0#1 0#1)) =
      [0x200#32, 0x201#32, 0x202#32, 0x203#32, 0x205#32, 0x206#32, 0x207#32, 0x209#32, 0x20A#32, 0x20B#32, 0x20D#32,
        0x20E#32, 0x20F#32, 0x210#32, 0x215#32, 0x216#32, 0x217#32, 0x218#32, 0x21D#32, 0x21E#32, 0x21F#32, 0x221#32,
        0x222#32, 0x230#32].map some := by decide

/-- Section 3, the corner cases of FnV and ExT. -/
theorem test_fnv_ext_corners :
    statusWord oneCell .short (report .syncExternal 1#1 1#1) = some 0x00011008#32 ∧
    statusWord { oneCell with extClass := .unclassified } .short (report .syncExternal 1#1 1#1) = some 0x00010008#32 ∧
    statusWord oneCell .short (report (.syncExternalWalk .one) 1#1 1#1) = some 0x0000100C#32 ∧
    statusWord oneCell .short (report (.translation .two) 1#1 1#1) = some 0x00000007#32 ∧
    statusWord oneCell .long (report .syncExternal 1#1 1#1) = some 0x00011210#32 := by decide

/-- Section 3, the refused rows. -/
theorem test_no_code :
    statusWord oneCell .short (report (.translation .three) 0#1 0#1) = none ∧
    statusWord oneCell .long (report (.domain .one) 0#1 0#1) = none ∧
    statusWord { oneCell with haveRAS := true } .short (report .syncParity 0#1 0#1) = none ∧
    statusWord { oneCell with haveLockdown := false } .short (report .lockdown 0#1 0#1) = none ∧
    statusWord oneCell .long (report .lockdown 0#1 0#1) = none := by decide

/-- Section 4. -/
theorem test_read_status :
    decodeStatus oneCell 0x00000206#32 = some (.translation .two) ∧ decodeStatus oneCell 0x00000006#32 = some (.accessFlag .two) ∧
    decodeStatus oneCell 0x00000600#32 = some .addressSizeBase ∧ decodeStatus oneCell 0x00000030#32 = none ∧
    decodeStatus { oneCell with haveRAS := true } 0x0000021F#32 = none ∧
    readStatus oneCell 0x00011210#32 = { layout := .long, cause := some .syncExternal, fnv := 1#1, ext := 1#1 } := by decide

/-- P1, step 1. -/
theorem test_report_step :
    goesOn (step (soon small (.instructionFault (report (.translation .two) 0#1 0#1))))
      (fun s => s.readCell .single == 7#32 && s.readIfar .single == 0x00402000#32 && s.schedule == []) = true := by decide

/-- P2, step 2 seen through IFSR32_EL2 (R23). -/
theorem test_aarch64_view : small.ifsr32El2 = 5#32 ∧ (withCfg small twoCells).ifsr32El2 = 0x20D#32 := by decide

/-! ## Witnesses: the hypotheses of the statements, clause by clause -/

theorem witness_DecodeOfEncodeIsIdentity : (Instr.mrcA32 0b0000#4 0#4).wf = true ∧ (Instr.mcrA32 0b1110#4 14#4).wf = true ∧
    (Instr.mrcT32 0#4).wf = true ∧ (Instr.mcrT32 14#4).wf = true := by decide

theorem witness_DecodedBytesAreTheEncoding :
    decode .t32 .big [0xEE#8, 0x05#8, 0xEF#8, 0x30#8, 0#8] = .ok (.mcrT32 14#4, [0#8]) := rfl

theorem witness_WordsOutsideTheTableAreRefusedByName :
    0xEE150F31#32 &&& 0x0FEF0FFF#32 ≠ 0x0E050F30#32 ∧
    (0xFE150F30#32 &&& 0x0FEF0FFF#32 = 0x0E050F30#32 ∧ (0xFE150F30#32).extractLsb' 28 4 = 0b1111#4) ∧
    (0xEE05FF30#32 &&& 0x0FEF0FFF#32 = 0x0E050F30#32 ∧ (0xEE05FF30#32).extractLsb' 28 4 ≠ 0b1111#4 ∧
      (0xEE05FF30#32).extractLsb' 12 4 = 15#4) ∧
    (0xE8000000#32 &&& 0xFFEF0FFF#32 ≠ 0xEE050F30#32 ∧ t32IsWide ((0xE8000000#32).extractLsb' 16 16) = true) ∧
    (0xE7FFFFFF#32 &&& 0xFFEF0FFF#32 ≠ 0xEE050F30#32 ∧ t32IsWide ((0xE7FFFFFF#32).extractLsb' 16 16) = false) ∧
    (0xEE15FF30#32 &&& 0xFFEF0FFF#32 = 0xEE050F30#32 ∧ (0xEE15FF30#32).extractLsb' 12 4 = 15#4) := by decide

/-- At the last aligned address, so that the four bytes end at the top of the address space, on either kind of turn. -/
def loaded : State :=
  { small with
    pc := 0xFFFFFFFC#32
    schedule := [.instruction]
    mem := [(0xFFFFFFFC, 0x30#8), (0xFFFFFFFD, 0x0F#8), (0xFFFFFFFE, 0x15#8), (0xFFFFFFFF, 0xEE#8)] }

theorem witness_StepRunsDecodedInstruction :
    (loaded.schedule = [] ∨ loaded.schedule.head? = some .instruction) ∧ mayStandAt loaded.ctx.iset loaded.pc = true ∧
    memRead loaded.mem loaded.pc.toNat = some 0x30#8 ∧ memRead loaded.mem (loaded.pc + 1#32).toNat = some 0x0F#8 ∧
    memRead loaded.mem (loaded.pc + 2#32).toNat = some 0x15#8 ∧ memRead loaded.mem (loaded.pc + 3#32).toNat = some 0xEE#8 ∧
    decode loaded.ctx.iset loaded.cfg.fetchByteOrder [0x30#8, 0x0F#8, 0x15#8, 0xEE#8] = .ok (.mrcA32 0b1110#4 0#4, []) :=
  ⟨by decide, by decide, by decide, by decide, by decide, by decide, rfl⟩

theorem witness_LoadedTableWordIsTheNextInstruction :
    Memory.wf loaded.mem = true ∧ decodeTableWord 32 0xEE05EF30 = some (.mcrT32 14#4) := by decide

theorem witness_ReadAccessorTransfersSelectedCell : (0b1110#4 ≠ 0b1111#4) ∧ regOf 14#4 = some 14 ∧
    bankedEL3.ctx.conditionPassed = true ∧ permitted .read bankedEL3.cfg bankedEL3.ctx ∧
    selectCell bankedEL3.cfg bankedEL3.ctx = some .secure := by decide

theorem witness_WriteAccessorStoresMaskedRegister : (0b0000#4 ≠ 0b1111#4) ∧ regOf 0#4 = some 0 ∧
    small.ctx.conditionPassed = true ∧ permitted .write small.cfg small.ctx ∧
    selectCell small.cfg small.ctx = some .single := by decide

theorem witness_RegisterFieldNamesItsRegister : (0#4 ≠ 15#4) ∧ (14#4 ≠ 15#4) := by decide

/-- A read goes on, and it writes one register of fifteen. -/
theorem witness_ReadAccessorFrame : (∃ s', exec (.mrcA32 0b1110#4 14#4) small = .next s') ∧
    (∃ s', exec (.mrcT32 0#4) small = .next s') ∧ regOf 14#4 ≠ some 0 := ⟨⟨_, rfl⟩, ⟨_, rfl⟩, by decide⟩

/-- A write goes on, and it selects one cell of three. -/
theorem witness_WriteAccessorFrame : (∃ s', exec (.mcrA32 0b1110#4 14#4) small = .next s') ∧
    (∃ s', exec (.mcrT32 0#4) small = .next s') ∧ selectCell small.cfg small.ctx ≠ some .secure :=
  ⟨⟨_, rfl⟩, ⟨_, rfl⟩, by decide⟩

theorem witness_FailedConditionOnlyAdvances : (Instr.mcrA32 0b0001#4 2#4).wf = true ∧
    (unpassed small).ctx.conditionPassed = false ∧
    permitted (accessKindOf (.mcrA32 0b0001#4 2#4)) (unpassed small).cfg (unpassed small).ctx := by decide

theorem witness_FailedConditionMayStillStop : (Instr.mrcT32 0#4).wf = true ∧
    (unpassed (guest false 1#1 0#1 0#1)).ctx.conditionPassed = false ∧
    ¬ permitted (accessKindOf (.mrcT32 0#4)) (unpassed (guest false 1#1 0#1 0#1)).cfg
      (unpassed (guest false 1#1 0#1 0#1)).ctx := by decide

theorem witness_AccessorsUndefinedAtEL0 : (0b1110#4 ≠ 0b1111#4) ∧ (14#4 ≠ 15#4) ∧
    (atLevel small .el0).ctx.conditionPassed = true ∧ (atLevel small .el0).ctx.el = .el0 := by decide

theorem witness_T5TrapsReadsAndWrites : ∀ a32 : Bool, (Instr.mcrT32 14#4).wf = true ∧
    (guest a32 1#1 1#1 1#1).ctx.conditionPassed = true ∧ (guest a32 1#1 1#1 1#1).ctx.el = .el1 ∧
    (guest a32 1#1 1#1 1#1).ctx.el2Enabled = true ∧ (guest a32 1#1 1#1 1#1).cfg.el2A32 = a32 ∧
    (guest a32 1#1 1#1 1#1).ctx.hstrEL2T5 = 1#1 ∧ (guest a32 1#1 1#1 1#1).ctx.hstrT5 = 1#1 := by decide

theorem witness_TRVMTrapsReadsOnly : ∀ a32 : Bool, (0b1110#4 ≠ 0b1111#4) ∧ (0#4 ≠ 15#4) ∧
    (guest a32 0#1 1#1 0#1).ctx.conditionPassed = true ∧ (guest a32 0#1 1#1 0#1).ctx.el = .el1 ∧
    (guest a32 0#1 1#1 0#1).ctx.el2Enabled = true ∧ (guest a32 0#1 1#1 0#1).cfg.el2A32 = a32 ∧
    (guest a32 0#1 1#1 0#1).ctx.hstrEL2T5 = 0#1 ∧ (guest a32 0#1 1#1 0#1).ctx.hcrEL2TRVM = 1#1 ∧
    (guest a32 0#1 1#1 0#1).ctx.hstrT5 = 0#1 ∧ (guest a32 0#1 1#1 0#1).ctx.hcrTRVM = 1#1 := by decide

theorem witness_TVMTrapsWritesOnly : ∀ a32 : Bool, (0b1110#4 ≠ 0b1111#4) ∧ (0#4 ≠ 15#4) ∧
    (guest a32 0#1 0#1 1#1).ctx.conditionPassed = true ∧ (guest a32 0#1 0#1 1#1).ctx.el = .el1 ∧
    (guest a32 0#1 0#1 1#1).ctx.el2Enabled = true ∧ (guest a32 0#1 0#1 1#1).cfg.el2A32 = a32 ∧
    (guest a32 0#1 0#1 1#1).ctx.hstrEL2T5 = 0#1 ∧ (guest a32 0#1 0#1 1#1).ctx.hcrEL2TVM = 1#1 ∧
    (guest a32 0#1 0#1 1#1).ctx.hstrT5 = 0#1 ∧ (guest a32 0#1 0#1 1#1).ctx.hcrTVM = 1#1 := by decide

theorem witness_SelectedCellFollowsTheTable :
    (small.ctx.el = .el1 ∧ (oneCell.haveEL3 && oneCell.el3A32) = false) ∧
    (small.ctx.el = .el1 ∧ (twoCells.haveEL3 && twoCells.el3A32) = true ∧ small.ctx.scrNS = 0#1) ∧
    ((atLevel small .el2).ctx.el = .el2 ∧ (atLevel small .el3).ctx.el = .el3 ∧ (atLevel small .el3).ctx.scrNS = 0#1) ∧
    ({ Context.atReset with scrNS := 1#1 }.el = .el1 ∧ { Context.atReset with scrNS := 1#1 }.scrNS = 1#1) ∧
    ({ Context.atReset with scrNS := 1#1, el := .el3 }.el = .el3) := by decide

theorem witness_RegisterFifteenIsRefused : (0b1110#4 ≠ 0b1111#4) := by decide

theorem witness_ReadAfterWriteReturnsMaskedValue : (Instr.mcrA32 0b1110#4 1#4).wf = true ∧ (Instr.mrcT32 14#4).wf = true ∧
    accessKindOf (.mcrA32 0b1110#4 1#4) = .write ∧ accessKindOf (.mrcT32 14#4) = .read ∧
    regOf (Instr.mcrA32 0b1110#4 1#4).rt = some 1 ∧ regOf (Instr.mrcT32 14#4).rt = some 14 ∧
    small.ctx.conditionPassed = true ∧ permitted .write small.cfg small.ctx ∧ permitted .read small.cfg small.ctx := by decide

theorem witness_AccessorsCompleteAtEL2AndEL3 : (Instr.mrcA32 0b1110#4 0#4).wf = true ∧ (atLevel small .el2).ctx.el = .el2 ∧
    bankedEL3.ctx.el = .el3 := by decide

theorem witness_AccessorOutcomesAreTheFourStated : (Instr.mcrT32 14#4).wf = true := by decide

theorem witness_HardwiredBitsObeyTheLaw : oneCell.extClass = .classified ∧
    { oneCell with extClass := .unclassified }.extClass = .unclassified ∧
    0xFFFEE9F0#32 &&& ~~~(res0Bits .short) = 0#32 ∧ 0xFFFEEDC0#32 &&& ~~~(res0Bits .long) = 0#32 ∧
    0xFFFEF9F0#32 &&& ~~~(res0Bits .short ||| 0x00001000#32) = 0#32 ∧
    0xFFFEFDC0#32 &&& ~~~(res0Bits .long ||| 0x00001000#32) = 0#32 := by decide

theorem witness_DirectWriteStoresEveryFieldBit : oneCell.extClass = .classified := by decide

/-- A report of each format, in each format's state. -/
def inLong (s : State) : State := { s with ctx := { s.ctx with fmt := .long } }

theorem witness_HardwareWriteReportsTheFault :
    (soon small (.instructionFault (report .syncExternal 1#1 1#1))).schedule =
      [.environment (.instructionFault (report .syncExternal 1#1 1#1))] ∧
    small.ctx.fmt = .short ∧ fsOf oneCell .syncExternal = some 0b01000#5 ∧
    (inLong small).ctx.fmt = .long ∧ statusOf oneCell .syncExternal = some 0b010000#6 := by decide

theorem witness_CauseWithoutCodeIsRefused :
    (soon small (.instructionFault (report .lockdown 0#1 0#1))).schedule =
      [.environment (.instructionFault (report .lockdown 0#1 0#1))] ∧
    small.ctx.fmt = .short ∧ fsOf oneCell .addressSizeBase = none ∧
    (inLong small).ctx.fmt = .long ∧ statusOf oneCell .lockdown = none := by decide

/-- Meets the hypothesis `statusWord … = some v` in each clause of HardwareWritesFnVForSyncExternalOnly,
HardwareWritesExTForAbortAndParityCauses, HardwareWritesLayoutCleanly, DecodeInvertsTheHardwareWrite,
ReservedStatusIsNeverWritten and WritingBackKeepsAHardwareValue. -/
theorem witness_HardwareWrittenValues :
    statusWord oneCell .short (report .syncExternal 1#1 1#1) = some 0x00011008#32 ∧
    statusWord oneCell .long (report (.syncParityWalk .three) 1#1 1#1) = some 0x0000121F#32 ∧
    statusWord oneCell .short (report (.translation .one) 1#1 1#1) = some 0x00000005#32 ∧
    statusWord { oneCell with extClass := .unclassified } .long (report .syncExternal 1#1 1#1) = some 0x00010210#32 ∧
    statusWord { oneCell with haveRAS := true, haveLockdown := false } .short (report .debug 1#1 1#1) = some 0x00000002#32 ∧
    statusWord { oneCell with haveRAS := true } .long (report .tlbConflict 1#1 1#1) = some 0x00000230#32 := by decide

theorem witness_SecondFaultReplacesTheFirst : (report .syncExternal 1#1 0#1).cell = (report .pcAlignment 0#1 0#1).cell ∧
    statusWord small.cfg small.ctx.fmt (report .syncExternal 1#1 0#1) = some 0x00010008#32 ∧
    statusWord small.cfg small.ctx.fmt (report .pcAlignment 0#1 0#1) = some 0x00000001#32 ∧
    { small with
      schedule := [.environment (.instructionFault (report .syncExternal 1#1 0#1)),
        .environment (.instructionFault (report .pcAlignment 0#1 0#1))] }.schedule =
      .environment (.instructionFault (report .syncExternal 1#1 0#1)) ::
        .environment (.instructionFault (report .pcAlignment 0#1 0#1)) :: [] := by decide

theorem witness_DecodeIgnoresReservedBits : lpaeOf 0x00000600#32 = lpaeOf 0x00000200#32 ∧
    0x00000600#32 &&& fieldBits (layoutOf 0x00000600#32) = 0x00000200#32 &&& fieldBits (layoutOf 0x00000600#32) ∧
    lpaeOf 0xFFFEE9F0#32 = lpaeOf 0#32 ∧
    0xFFFEE9F0#32 &&& fieldBits (layoutOf 0xFFFEE9F0#32) = 0#32 &&& fieldBits (layoutOf 0xFFFEE9F0#32) := by decide

theorem witness_ResetStepDrawsEveryCell : (soon small (.reset Context.atReset 0xFFFF0000#32)).schedule =
    [.environment (.reset Context.atReset 0xFFFF0000#32)] := by decide

theorem witness_AArch64NameSharesTheStorage :
    (soon small (.ifsr32El2Write 9#32)).schedule = [.environment (.ifsr32El2Write 9#32)] ∧
    (oneCell.haveEL3 && oneCell.el3A32) = false ∧ (small.ctx.el = .el1 ∨ small.ctx.el = .el2) ∧
    small.ctx.conditionPassed = true ∧ permitted .read small.cfg small.ctx ∧ permitted .write small.cfg small.ctx ∧
    (Instr.mrcT32 14#4).wf = true ∧ accessKindOf (.mrcT32 14#4) = .read ∧ regOf (Instr.mrcT32 14#4).rt = some 14 ∧
    (Instr.mcrT32 0#4).wf = true ∧ accessKindOf (.mcrT32 0#4) = .write ∧ regOf (Instr.mcrT32 0#4).rt = some 0 := by decide

theorem witness_EnvironmentInputsChangeOneThing : Memory.wf small.mem = true ∧
    (soon small (.context Context.atReset)).schedule = [.environment (.context Context.atReset)] ∧
    (soon small (.transfer 0xFFFFFFFF#32)).schedule = [.environment (.transfer 0xFFFFFFFF#32)] ∧
    (soon small (.register 14 1#32)).schedule = [.environment (.register 14 1#32)] ∧
    (soon small (.memoryByte 0xFFFFFFFF#32 1#8)).schedule = [.environment (.memoryByte 0xFFFFFFFF#32 1#8)] := by decide

/-- A step of the PE goes on from a state with the invariant, pc at the top of the address space: the hypotheses of
StepKeepsTheInvariant, StepKeepsTheConfiguration, InstructionStepsTouchNoMemory and PcStaysWhereAnAccessorMayStand. -/
theorem witness_StepGoesOn : Inv loaded ∧ peTurn loaded ∧ ∃ s', step loaded = .next s' :=
  ⟨by decide, by decide, ⟨_, rfl⟩⟩

/-- The same, of the environment: a step that changes a cell. -/
theorem witness_OnlyNamedWritersChangeACell : ∃ s',
    step (soon small (.ifsr32El2Write 9#32)) = .next s' ∧ s'.cells.get .single ≠ small.cells.get .single :=
  ⟨_, rfl, by decide⟩

/-- Two states that differ in one cell, at a read of that cell into R0. -/
theorem witness_CellValuesReachOnlyWhatIsRead :
    differOnlyIn (· = .single) (fun _ => False) loaded (loaded.writeCell .single 1#32) ∧
    (loaded.writeCell .single 1#32).cells.get .single ≠ loaded.cells.get .single ∧ transfers .read loaded 0 .single :=
  ⟨⟨⟨_, _, rfl⟩, fun c h => by cases c <;> first | rfl | exact absurd rfl h, fun _ _ => rfl⟩,
    by decide,
    by decide, by decide, by decide, by decide, .mrcA32 0b1110#4 0#4, rfl, rfl, by decide⟩

/-- `loaded` with `MCR p15, 0, r1, c5, c0, 1` (95_test_vectors.md section 6) in place of the MRC. -/
def loadedWrite : State :=
  { loaded with
    mem := [(0xFFFFFFFC, 0x30#8), (0xFFFFFFFD, 0x1F#8), (0xFFFFFFFE, 0x05#8), (0xFFFFFFFF, 0xEE#8)] }

/-- Two states that differ in R1, at a write of the cell from it. -/
theorem witness_CellValuesReachOnlyWhatIsRead_write :
    differOnlyIn (fun _ => False) (· = 1) loadedWrite (loadedWrite.writeReg 1 0#32) ∧
    (loadedWrite.writeReg 1 0#32).gpr[1] ≠ loadedWrite.gpr[1] ∧ transfers .write loadedWrite 1 .single :=
  ⟨⟨⟨_, _, rfl⟩, fun _ _ => rfl, by decide⟩, by decide,
    by decide, by decide, by decide, by decide, .mcrA32 0b1110#4 1#4, rfl, rfl, by decide⟩

/-- Two states on the Non-secure side that differ in the Secure cell. -/
theorem witness_NonSecureStepsDoNotSeeTheSecureCell :
    peTurn (atLevel (withCfg loaded twoCells) .el2) ∧ nonSecureSide (atLevel (withCfg loaded twoCells) .el2) ∧
    (atLevel (withCfg loaded twoCells) .el2).hideSecure =
      ((atLevel (withCfg loaded twoCells) .el2).writeCell .secure 1#32).hideSecure := by decide

theorem witness_NonSecureStepsKeepTheSecureCell :
    peTurn (atLevel (withCfg loaded twoCells) .el2) ∧ nonSecureSide (atLevel (withCfg loaded twoCells) .el2) ∧
    ∃ s', step (atLevel (withCfg loaded twoCells) .el2) = .next s' :=
  ⟨by decide, by decide, ⟨_, rfl⟩⟩

end Sys2Proof.Tests
end

/-! SUPPORT. How an accessor ends and what every step keeps (00_scope.md R6, R9). -/

namespace Sys2Proof.Machine

/-! ## Where an accessor may end -/

/-- A well-formed instruction names one of R0 to R14 (30_encoding.md R63). -/
theorem rt_ne_fifteen_of_wf (i : Instr) (h : i.wf = true) : i.rt ≠ 15#4 := by
  cases i with
  | mrcA32 cond rt | mcrA32 cond rt =>
    obtain ⟨_, hrt⟩ := Bool.and_eq_true_iff.mp h
    exact bne_iff_ne.mp hrt
  | mrcT32 rt | mcrT32 rt => exact bne_iff_ne.mp h

/-- Neither refusal of an accessor, register 15 and cond 0b1111, is left to a well-formed instruction: it is the shape
R80 and R81 share. -/
theorem exec_eq_accessor_of_wf (i : Instr) (s : State) (h : i.wf = true) :
    ∃ transfer, exec i s = accessor (accessKindOf i) transfer s := by
  obtain ⟨t, ht, _⟩ := regOf_eq_some i.rt (rt_ne_fifteen_of_wf i h)
  cases hk : accessKindOf i with
  | read =>
    rw [exec_of_read i s h hk, readAccessor, ht]
    exact ⟨_, rfl⟩
  | write =>
    rw [exec_of_write i s h hk, writeAccessor, ht]
    exact ⟨_, rfl⟩

/-- The stops of the access check, each with the level and the kind of EL2 it belongs to (40_sysreg_access.md R86). -/
theorem accessCheck_some (k : AccessKind) (cfg : Config) (x : Context) (f : Fault) (h : accessCheck k cfg x = some f) :
    (f = .undefined ∧ x.el = .el0) ∨
    (f = .trapEL2A64 trapCode ∧ x.el = .el1 ∧ x.el2Enabled = true ∧ cfg.el2A32 = false) ∨
    (f = .trapHyp trapCode ∧ x.el = .el1 ∧ x.el2Enabled = true ∧ cfg.el2A32 = true) := by
  cases hel : x.el with
  | el0 =>
    simp only [accessCheck, hel, Option.some.injEq] at h
    exact .inl ⟨h.symm, rfl⟩
  | el1 =>
    cases hen : x.el2Enabled with
    | false => simp [accessCheck, hel, hen] at h
    | true =>
      cases ha32 : cfg.el2A32 with
      | false =>
        have hf : f = .trapEL2A64 trapCode := by
          simp only [accessCheck, hel, hen, ha32] at h
          split_ifs at h <;> simp_all
        exact .inr (.inl ⟨hf, rfl, rfl, rfl⟩)
      | true =>
        have hf : f = .trapHyp trapCode := by
          simp only [accessCheck, hel, hen, ha32] at h
          split_ifs at h <;> simp_all
        exact .inr (.inr ⟨hf, rfl, rfl, rfl⟩)
  | el2 | el3 => simp [accessCheck, hel] at h

/-- Settles O25: a well-formed instruction is an accessor, which is never refused and faults only with its access
check's stop. -/
theorem accessorOutcomesAreTheFourStated : Obligations.AccessorOutcomesAreTheFourStated := by
  intro i s hwf
  obtain ⟨transfer, hexec⟩ := exec_eq_accessor_of_wf i s hwf
  rw [hexec]
  cases h : accessor (accessKindOf i) transfer s with
  | next s' => exact .inl ⟨s', rfl⟩
  | refused r => exact absurd h (accessor_not_refused _ _ s r)
  | fault f =>
    rcases accessCheck_some _ _ _ f (accessor_fault _ _ s f h) with ⟨rfl, hel⟩ | ⟨rfl, hel1⟩ | ⟨rfl, hel1⟩
    · exact .inr (.inl ⟨rfl, hel⟩)
    · exact .inr (.inr (.inl ⟨rfl, hel1⟩))
    · exact .inr (.inr (.inr ⟨rfl, hel1⟩))

/-! ## The configuration and the draws -/

/-- An accessor takes back no draw that its transfer does not take back. -/
theorem accessor_draws_le (k : AccessKind) (transfer : CellName → State → State) (s s' : State)
    (ht : ∀ c, s.draws ≤ (transfer c s).draws) (h : accessor k transfer s = .next s') : s.draws ≤ s'.draws := by
  rcases accessor_next k transfer s s' h with ⟨_, _, c, _, rfl⟩ | ⟨_, _, rfl⟩ | ⟨_, _, rfl⟩
  · exact ht c
  · exact le_rfl
  · exact Nat.le_add_right _ 1

/-- No instruction takes back a draw. -/
theorem exec_draws_le (i : Instr) (s s' : State) (h : exec i s = .next s') : s.draws ≤ s'.draws := by
  rcases exec_next i s s' h with hread | hwrite
  · obtain ⟨t, _, ha⟩ := readAccessor_next _ s s' hread
    exact accessor_draws_le _ _ s s' (fun _ => le_rfl) ha
  · obtain ⟨t, _, ha⟩ := writeAccessor_next _ s s' hwrite
    exact accessor_draws_le _ _ s s' (fun _ => le_rfl) ha

/-- The write of IFAR keeps the configuration and takes back no draw. -/
theorem reportIfar_keeps_cfg_draws (r : FaultReport) (s : State) :
    (reportIfar r s).cfg = s.cfg ∧ s.draws ≤ (reportIfar r s).draws := by
  rcases reportIfar_cases r s with ⟨_, h⟩ | ⟨_, h⟩ <;> simp [h]

/-- Reset keeps the configuration and draws for each of the three cells (70_reset_and_hazards.md R140). -/
theorem resetPE_keeps_cfg_draws (start : Context) (vector : Word) (s : State) :
    (resetPE start vector s).cfg = s.cfg ∧ (resetPE start vector s).draws = s.draws + 3 := ⟨rfl, rfl⟩

/-- No event of the environment changes the configuration or takes back a draw. -/
theorem environmentStep_keeps_cfg_draws (e : EnvEvent) (s s' : State) (h : environmentStep e s = .next s') :
    s'.cfg = s.cfg ∧ s.draws ≤ s'.draws := by
  rcases environmentStep_next e s s' h with ⟨r, v, _, _, rfl⟩ | ⟨start, vector, _, rfl⟩ | ⟨c, _, rfl⟩ |
    ⟨target, _, rfl⟩ | ⟨t, v, _, rfl⟩ | ⟨a, b, _, rfl⟩ | ⟨v, _, rfl⟩
  case inl => exact reportIfar_keeps_cfg_draws r (s.writeCell r.cell v)
  case inr.inl =>
    obtain ⟨hcfg, hdraws⟩ := resetPE_keeps_cfg_draws start vector s
    exact ⟨hcfg, by omega⟩
  all_goals exact ⟨rfl, le_rfl⟩

/-- Settles O46, by the two kinds of turn; using up the turn touches neither field. -/
theorem stepKeepsTheConfiguration : Obligations.StepKeepsTheConfiguration := by
  intro s s' h
  rcases step_next s s' h with ⟨_, i, _, hexec⟩ | ⟨e, rest, _, henv⟩
  · obtain ⟨hcfg, _⟩ := exec_frame i _ s' hexec
    have hdraws := exec_draws_le i _ s' hexec
    exact ⟨hcfg, hdraws⟩
  · have hkeeps := environmentStep_keeps_cfg_draws e _ s' henv
    exact hkeeps

end Sys2Proof.Machine

/-! SUPPORT. The state's own laws (10_state.md): what a direct write and the hardware write store, what a PE step keeps,
who may write a cell, and where a cell's value can reach. -/

namespace Sys2Proof.Machine

/-! ## Turns -/

/-- Every step is the PE's or the environment's. -/
theorem turn_cases (s : State) : peTurn s ∨ ∃ e rest, s.schedule = .environment e :: rest := by
  cases hs : s.schedule with
  | nil => exact .inl (.inl hs)
  | cons turn rest =>
    cases turn with
    | instruction => exact .inl (.inr (by rw [hs]; rfl))
    | environment e => exact .inr ⟨e, rest, rfl⟩

theorem step_of_environment {s : State} {e : EnvEvent} {rest : List Turn} (h : s.schedule = .environment e :: rest) :
    step s = environmentStep e (s.setSchedule rest) := by
  rw [step, h]

/-- A PE step that goes on executed a fetched instruction in the state with the turn used up. -/
theorem peStep_next {s s' : State} (hp : peTurn s) (h : step s = .next s') :
    ∃ i, fetch (afterTurn s) = .next i ∧ exec i (afterTurn s) = .next s' :=
  instructionStep_next _ _ (step_of_peTurn s hp ▸ h)

/-! ## The four meanings as one accessor -/

/-- What R80 and R81 transfer between R[t] and cell c. -/
def transferOf : AccessKind → Fin 15 → CellName → State → State
  | .read, t, c, s => s.writeReg t (s.readCell c)
  | .write, t, c, s => s.writeCell c (directValue s.cfg s.ctx.fmt (s.readReg t))

/-- A meaning that in every state is refused, or in every state is the accessor of the register that the field names. -/
def IsAccess (k : AccessKind) (rt : BitVec 4) (run : State → Answer) : Prop :=
  (∃ r, ∀ s, run s = .refused r) ∨ ∃ t, regOf rt = some t ∧ ∀ s, run s = accessor k (transferOf k t) s

theorem readAccessor_of_regOf {rt : BitVec 4} {t : Fin 15} (h : regOf rt = some t) (s : State) :
    readAccessor rt s = accessor .read (transferOf .read t) s := by
  rw [readAccessor, h]; rfl

theorem writeAccessor_of_regOf {rt : BitVec 4} {t : Fin 15} (h : regOf rt = some t) (s : State) :
    writeAccessor rt s = accessor .write (transferOf .write t) s := by
  rw [writeAccessor, h]; rfl

theorem readAccessor_isAccess (rt : BitVec 4) : IsAccess .read rt (readAccessor rt) := by
  cases h : regOf rt with
  | none => exact .inl ⟨.registerFifteen, fun s => by rw [readAccessor, h]⟩
  | some t => exact .inr ⟨t, h, readAccessor_of_regOf h⟩

theorem writeAccessor_isAccess (rt : BitVec 4) : IsAccess .write rt (writeAccessor rt) := by
  cases h : regOf rt with
  | none => exact .inl ⟨.registerFifteen, fun s => by rw [writeAccessor, h]⟩
  | some t => exact .inr ⟨t, h, writeAccessor_of_regOf h⟩

/-- A condition field adds a refusal in every state or nothing (30_encoding.md R67 c). -/
theorem IsAccess.underA32Condition {k : AccessKind} {rt : BitVec 4} {run : State → Answer} (h : IsAccess k rt run)
    (cond : BitVec 4) : IsAccess k rt (underA32Condition cond run) := by
  by_cases hc : cond = 0b1111#4
  · exact .inl ⟨.conditionUnallocated, fun s => if_pos hc⟩
  · have hrun : Machine.underA32Condition cond run = run := funext fun s => underA32Condition_of cond run s hc
    rwa [hrun]

theorem exec_isAccess (i : Instr) : IsAccess (accessKindOf i) i.rt (exec i) := by
  cases i with
  | mrcA32 cond rt => exact (readAccessor_isAccess rt).underA32Condition cond
  | mcrA32 cond rt => exact (writeAccessor_isAccess rt).underA32Condition cond
  | mrcT32 rt => exact readAccessor_isAccess rt
  | mcrT32 rt => exact writeAccessor_isAccess rt

/-- A well-formed instruction, passed and permitted, transfers between its register and the selected cell and advances
pc (R80, R81). -/
theorem exec_of_permitted {k : AccessKind} {i : Instr} {s : State} {t : Fin 15} {c : CellName} (hwf : i.wf = true)
    (hk : accessKindOf i = k) (ht : regOf i.rt = some t) (hpass : s.ctx.conditionPassed = true)
    (hperm : permitted k s.cfg s.ctx) (hc : selectCell s.cfg s.ctx = some c) :
    exec i s = .next (transferOf k t c s).advance := by
  have hexec : exec i s = accessor k (transferOf k t) s := by
    cases k with
    | read => rw [exec_of_read i s hwf hk, readAccessor_of_regOf ht]
    | write => rw [exec_of_write i s hwf hk, writeAccessor_of_regOf ht]
  have hauth : authorise k s = .ok c := authorise_of k s c ((accessCheck_none_iff k _ _).mpr hperm) hc
  simp [hexec, accessor, hauth, State.conditionPassed, hpass]

/-- The cells after an instruction that goes on: as before, or the selected one written by a passed and permitted MCR
(R81). -/
theorem exec_cells {i : Instr} {s s' : State} (h : exec i s = .next s') :
    s'.cells = s.cells ∨
    (s.ctx.conditionPassed = true ∧ permitted .write s.cfg s.ctx ∧ accessKindOf i = .write ∧
      ∃ c t, selectCell s.cfg s.ctx = some c ∧ regOf i.rt = some t ∧
        s'.cells = s.cells.set c (directValue s.cfg s.ctx.fmt (s.readReg t))) := by
  rcases exec_isAccess i with ⟨r, hr⟩ | ⟨t, ht, hrun⟩
  · rw [hr s] at h; cases h
  rw [hrun s] at h
  rcases accessor_next _ _ s s' h with ⟨hpass, hcheck, c, hc, rfl⟩ | ⟨_, _, rfl⟩ | ⟨_, _, rfl⟩
  · cases hk : accessKindOf i with
    | read => exact .inl rfl
    | write =>
      rw [hk, accessCheck_none_iff] at hcheck
      exact .inr ⟨hpass, hcheck, rfl, c, t, hc, ht, rfl⟩
  · exact .inl rfl
  · exact .inl rfl

/-! ## Where a cell's value reaches: two runs side by side -/

section TwoRuns
variable {C C' : CellName → Prop} {T T' : Fin 15 → Prop} {s1 s2 : State} (h : differOnlyIn C T s1 s2)
include h

theorem differOnlyIn.cfg_eq : s2.cfg = s1.cfg := by obtain ⟨⟨cells, gpr, rfl⟩, _, _⟩ := h; rfl
theorem differOnlyIn.ctx_eq : s2.ctx = s1.ctx := by obtain ⟨⟨cells, gpr, rfl⟩, _, _⟩ := h; rfl
theorem differOnlyIn.mem_eq : s2.mem = s1.mem := by obtain ⟨⟨cells, gpr, rfl⟩, _, _⟩ := h; rfl
theorem differOnlyIn.schedule_eq : s2.schedule = s1.schedule := by obtain ⟨⟨cells, gpr, rfl⟩, _, _⟩ := h; rfl
theorem differOnlyIn.draws_eq : s2.draws = s1.draws := by obtain ⟨⟨cells, gpr, rfl⟩, _, _⟩ := h; rfl

theorem differOnlyIn.mono (hC : ∀ c, C c → C' c) (hT : ∀ t, T t → T' t) : differOnlyIn C' T' s1 s2 := by
  obtain ⟨heq, hcells, hgpr⟩ := h
  exact ⟨heq, fun c hc => hcells c (mt (hC c) hc), fun t ht => hgpr t (mt (hT t) ht)⟩

/-- An update that neither reads nor writes cells and registers keeps the relation. -/
theorem differOnlyIn.map {f : State → State}
    (hf : ∀ s cells gpr, f { s with cells := cells, gpr := gpr } = { f s with cells := cells, gpr := gpr }) :
    differOnlyIn C T (f s1) (f s2) := by
  obtain ⟨⟨cells, gpr, rfl⟩, hcells, hgpr⟩ := h
  have hself : f s1 = { f s1 with cells := s1.cells, gpr := s1.gpr } := hf s1 s1.cells s1.gpr
  have hc1 : (f s1).cells = s1.cells := by rw [hself]
  have hg1 : (f s1).gpr = s1.gpr := by rw [hself]
  refine ⟨⟨cells, gpr, hf s1 cells gpr⟩, ?_, ?_⟩
  · rw [hf, hc1]; exact hcells
  · rw [hf, hg1]; exact hgpr

/-- R[t] takes values that may differ only where t is among the registers that may. -/
theorem differOnlyIn.writeReg {t : Fin 15} {v1 v2 : Word} (hv : ¬T t → v2 = v1) :
    differOnlyIn C T (s1.writeReg t v1) (s2.writeReg t v2) := by
  obtain ⟨⟨cells, gpr, rfl⟩, hcells, hgpr⟩ := h
  refine ⟨⟨cells, gpr.set t v2, rfl⟩, hcells, fun u hu => ?_⟩
  by_cases hut : u = t
  · subst hut
    exact ((State.readReg_writeReg_same _ u v2).trans (hv hu)).trans (State.readReg_writeReg_same _ u v1).symm
  · exact ((State.readReg_writeReg_other _ t u v2 hut).trans (hgpr u hu)).trans
      (State.readReg_writeReg_other s1 t u v1 hut).symm

/-- Cell c takes values that may differ only where c is among the cells that may. -/
theorem differOnlyIn.writeCell {c : CellName} {v1 v2 : Word} (hv : ¬C c → v2 = v1) :
    differOnlyIn C T (s1.writeCell c v1) (s2.writeCell c v2) := by
  obtain ⟨⟨cells, gpr, rfl⟩, hcells, hgpr⟩ := h
  refine ⟨⟨cells.set c v2, gpr, rfl⟩, fun d hd => ?_, hgpr⟩
  simp only [State.writeCell_cells, Bank.get_set]
  split
  case isTrue hdc => exact hv (hdc ▸ hd)
  case isFalse => exact hcells d hd

/-- The fetch reads no cell and no register. -/
theorem differOnlyIn.fetch_eq : fetch s2 = fetch s1 := by obtain ⟨⟨cells, gpr, rfl⟩, _, _⟩ := h; rfl

theorem differOnlyIn.authorise_eq (k : AccessKind) : authorise k s2 = authorise k s1 := by
  rw [authorise, h.cfg_eq, h.ctx_eq]; rfl

/-- Reset overwrites every cell and every register. -/
theorem differOnlyIn.resetPE_eq (start : Context) (vector : Word) : resetPE start vector s2 = resetPE start vector s1 := by
  obtain ⟨⟨cells, gpr, rfl⟩, _, _⟩ := h; rfl

end TwoRuns

theorem differOnlyIn.refl (C : CellName → Prop) (T : Fin 15 → Prop) (s : State) : differOnlyIn C T s s :=
  ⟨⟨s.cells, s.gpr, rfl⟩, fun _ _ => rfl, fun _ _ => rfl⟩

/-- Both answers stop with one fault or one refusal, or go on to related states. -/
def answersAlike (R : State → State → Prop) (a1 a2 : Answer) : Prop :=
  (∃ f, a1 = .fault f ∧ a2 = .fault f) ∨ (∃ r, a1 = .refused r ∧ a2 = .refused r) ∨
  ∃ s1 s2, a1 = .next s1 ∧ a2 = .next s2 ∧ R s1 s2

theorem answersAlike.fault (R : State → State → Prop) (f : Fault) : answersAlike R (.fault f) (.fault f) :=
  .inl ⟨f, rfl, rfl⟩

theorem answersAlike.refused (R : State → State → Prop) (r : Refusal) : answersAlike R (.refused r) (.refused r) :=
  .inr (.inl ⟨r, rfl, rfl⟩)

theorem answersAlike.next {R : State → State → Prop} {s1 s2 : State} (h : R s1 s2) :
    answersAlike R (.next s1) (.next s2) :=
  .inr (.inr ⟨s1, s2, rfl, rfl, h⟩)

theorem answersAlike.mono {R R' : State → State → Prop} {a1 a2 : Answer} (h : answersAlike R a1 a2)
    (hR : ∀ s1 s2, R s1 s2 → R' s1 s2) : answersAlike R' a1 a2 := by
  rcases h with hfault | hrefused | ⟨s1, s2, h1, h2, hrel⟩
  · exact .inl hfault
  · exact .inr (.inl hrefused)
  · exact .inr (.inr ⟨s1, s2, h1, h2, hR s1 s2 hrel⟩)

section TwoRunSteps
variable {C C' : CellName → Prop} {T T' : Fin 15 → Prop} {s1 s2 : State}

/-- The write of IFAR neither reads nor writes cells and registers. -/
theorem reportIfar_commutes (r : FaultReport) (s : State) (cells : Bank) (gpr : Vector Word 15) :
    reportIfar r { s with cells := cells, gpr := gpr } = { reportIfar r s with cells := cells, gpr := gpr } := by
  unfold reportIfar
  split <;> rfl

/-- The hardware write reads no cell and no register. -/
theorem reportInstructionFault_alike (r : FaultReport) (h : differOnlyIn C T s1 s2) :
    answersAlike (differOnlyIn C T) (reportInstructionFault r s1) (reportInstructionFault r s2) := by
  unfold reportInstructionFault
  rw [h.cfg_eq, h.ctx_eq]
  cases statusWord s1.cfg s1.ctx.fmt r with
  | none => exact .refused _ _
  | some v => exact .next ((h.writeCell fun _ => rfl).map (reportIfar_commutes r))

/-- No event of the environment carries a cell or a register elsewhere. -/
theorem environmentStep_alike (e : EnvEvent) (h : differOnlyIn C T s1 s2) :
    answersAlike (differOnlyIn C T) (environmentStep e s1) (environmentStep e s2) := by
  cases e with
  | instructionFault r => exact reportInstructionFault_alike r h
  | reset start vector =>
    refine .next ?_
    rw [h.resetPE_eq]
    exact .refl C T _
  | context x => exact .next (h.map (f := (·.setCtx x)) fun _ _ _ => rfl)
  | transfer target => exact .next (h.map (f := (·.setPc target)) fun _ _ _ => rfl)
  | register t v => exact .next (h.writeReg fun _ => rfl)
  | memoryByte a b =>
    refine .next ?_
    rw [h.mem_eq]
    exact h.map (f := (·.setMem (memWrite s1.mem a.toNat b))) fun _ _ _ => rfl
  | ifsr32El2Write v =>
    refine .next ?_
    rw [h.cfg_eq]
    exact h.writeCell fun _ => rfl

/-- An accessor carries what its transfer carries where it is passed and permitted, and nothing otherwise. -/
theorem accessor_alike {k : AccessKind} {transfer : CellName → State → State} (h : differOnlyIn C T s1 s2)
    (hC : ∀ c, C c → C' c) (hT : ∀ t, T t → T' t)
    (htransfer : ∀ c, s1.ctx.conditionPassed = true → permitted k s1.cfg s1.ctx →
      selectCell s1.cfg s1.ctx = some c → differOnlyIn C' T' (transfer c s1) (transfer c s2)) :
    answersAlike (differOnlyIn C' T') (accessor k transfer s1) (accessor k transfer s2) := by
  have hkeep : differOnlyIn C' T' s1 s2 := h.mono hC hT
  unfold accessor State.conditionPassed
  rw [h.authorise_eq k, h.ctx_eq, h.draws_eq]
  cases hauth : authorise k s1 with
  | ok c =>
    obtain ⟨hcheck, hc⟩ := authorise_ok k s1 c hauth
    cases hpass : s1.ctx.conditionPassed with
    | true =>
      exact .next ((htransfer c hpass ((accessCheck_none_iff k _ _).mp hcheck) hc).map fun _ _ _ => rfl)
    | false => exact .next (hkeep.map fun _ _ _ => rfl)
  | error f =>
    dsimp only
    split
    · exact .fault _ f
    · exact .next (hkeep.map (f := (·.advance.drawn 1)) fun _ _ _ => rfl)

/-- The transfer carries a cell to R[t] or R[t] to a cell, by the kind of the access. -/
theorem transferOf_alike (k : AccessKind) (t : Fin 15) (c : CellName) (h : differOnlyIn C T s1 s2)
    (hC : ∀ c, C c → C' c) (hT : ∀ t, T t → T' t) (hread : k = .read → C c → T' t) (hwrite : k = .write → T t → C' c) :
    differOnlyIn C' T' (transferOf k t c s1) (transferOf k t c s2) := by
  have hkeep : differOnlyIn C' T' s1 s2 := h.mono hC hT
  have hcfg := h.cfg_eq
  have hctx := h.ctx_eq
  obtain ⟨_, hcells, hgpr⟩ := h
  cases k with
  | read => exact hkeep.writeReg fun ht => hcells c (mt (hread rfl) ht)
  | write =>
    refine hkeep.writeCell fun hc => ?_
    have hreg : s2.readReg t = s1.readReg t := hgpr t (mt (hwrite rfl) hc)
    rw [hcfg, hctx, hreg]

/-- An instruction carries a cell to the register it reads into, or a register to the cell it writes, where it is passed
and permitted. -/
theorem exec_alike (i : Instr) (h : differOnlyIn C T s1 s2) (hC : ∀ c, C c → C' c) (hT : ∀ t, T t → T' t)
    (hreach : ∀ t c, regOf i.rt = some t → s1.ctx.conditionPassed = true → permitted (accessKindOf i) s1.cfg s1.ctx →
      selectCell s1.cfg s1.ctx = some c →
      (accessKindOf i = .read → C c → T' t) ∧ (accessKindOf i = .write → T t → C' c)) :
    answersAlike (differOnlyIn C' T') (exec i s1) (exec i s2) := by
  rcases exec_isAccess i with ⟨r, hr⟩ | ⟨t, ht, hrun⟩
  · rw [hr, hr]; exact .refused _ r
  · rw [hrun, hrun]
    refine accessor_alike h hC hT fun c hpass hperm hc => ?_
    obtain ⟨hread, hwrite⟩ := hreach t c ht hpass hperm hc
    exact transferOf_alike _ t c h hC hT hread hwrite

end TwoRunSteps

/-- Settles O48: a step of the environment keeps the relation as it is; on the PE's turn both runs fetch one instruction,
and what it carries where is a transfer of the first run. -/
theorem cellValuesReachOnlyWhatIsRead : Obligations.CellValuesReachOnlyWhatIsRead := by
  intro C T s1 s2 h
  show answersAlike _ (step s1) (step s2)
  have hC : ∀ c, C c → C c ∨ ∃ t, transfers .write s1 t c ∧ T t := fun _ => .inl
  have hT : ∀ t, T t → T t ∨ ∃ c, transfers .read s1 t c ∧ C c := fun _ => .inl
  rcases turn_cases s1 with hp | ⟨e, rest, hs⟩
  · have hp2 : peTurn s2 := by rw [peTurn, h.schedule_eq]; exact hp
    have hafter : differOnlyIn C T (afterTurn s1) (afterTurn s2) := by
      unfold afterTurn
      rw [h.schedule_eq]
      exact h.map (f := (·.setSchedule s1.schedule.tail)) fun _ _ _ => rfl
    rw [step_of_peTurn s1 hp, step_of_peTurn s2 hp2]
    unfold instructionStep
    rw [hafter.fetch_eq]
    cases hfetch : fetch (afterTurn s1) with
    | fault f => exact .fault _ f
    | refused r => exact .refused _ r
    | next i =>
      refine exec_alike i hafter hC hT fun t c ht hpass hperm hc => ⟨fun hk hCc => ?_, fun hk hTt => ?_⟩
      · exact .inr ⟨c, ⟨hp, hpass, hk ▸ hperm, hc, i, hfetch, hk, ht⟩, hCc⟩
      · exact .inr ⟨t, ⟨hp, hpass, hk ▸ hperm, hc, i, hfetch, hk, ht⟩, hTt⟩
  · have hs2 : s2.schedule = .environment e :: rest := h.schedule_eq.trans hs
    rw [step_of_environment hs, step_of_environment hs2]
    have henv := environmentStep_alike e (h.map (f := (·.setSchedule rest)) fun _ _ _ => rfl)
    exact henv.mono fun _ _ hrel => hrel.mono hC hT

/-! ## Who writes a cell -/

/-- The write of IFAR touches no cell. -/
@[simp] theorem reportIfar_cells (r : FaultReport) (s : State) : (reportIfar r s).cells = s.cells := by
  rcases reportIfar_cases r s with ⟨_, h⟩ | ⟨_, h⟩ <;> simp [h]

/-- Writing one cell changes no other. -/
theorem Bank.eq_of_get_set_ne {b : Bank} {c d : CellName} {v : Word} (h : (b.set c v).get d ≠ b.get d) : d = c :=
  by_contra fun hne => h (Bank.get_set_other b c d v hne)

/-- A cell that an event of the environment changes is the one it reports a fault in, any cell at reset, or the one it
writes under the AArch64 name. -/
theorem environmentStep_changes_cell {e : EnvEvent} {s s' : State} {c : CellName} (h : environmentStep e s = .next s')
    (hne : s'.cells.get c ≠ s.cells.get c) :
    (∃ r, e = .instructionFault r ∧ r.cell = c ∧ statusWord s.cfg s.ctx.fmt r = some (s'.cells.get c)) ∨
    (∃ start vector, e = .reset start vector) ∨
    (∃ v, e = .ifsr32El2Write v ∧ c = aarch64Cell s.cfg ∧ s'.cells.get c = v) := by
  rcases environmentStep_next e s s' h with ⟨r, v, he, hv, rfl⟩ | ⟨start, vector, he, _⟩ | ⟨x, _, rfl⟩ |
    ⟨target, _, rfl⟩ | ⟨t, v, _, rfl⟩ | ⟨a, b, _, rfl⟩ | ⟨v, he, rfl⟩
  case inl =>
    rw [reportIfar_cells, State.writeCell_cells] at hne ⊢
    obtain rfl := Bank.eq_of_get_set_ne hne
    exact .inl ⟨r, he, rfl, by rw [Bank.get_set_same, hv]⟩
  case inr.inl => exact .inr (.inl ⟨start, vector, he⟩)
  case inr.inr.inr.inr.inr.inr =>
    obtain rfl := Bank.eq_of_get_set_ne hne
    exact .inr (.inr ⟨v, he, rfl, Bank.get_set_same _ _ _⟩)
  all_goals exact absurd rfl hne

/-- Settles O47: by the turn; a PE step changes only the cell that an MCR selects (`exec_cells`). -/
theorem onlyNamedWritersChangeACell : Obligations.OnlyNamedWritersChangeACell := by
  intro s s' c h hne
  rcases step_next s s' h with ⟨hp, i, hfetch, hexec⟩ | ⟨e, rest, hs, henv⟩
  · rcases exec_cells hexec with hsame | ⟨hpass, hperm, hk, d, t, hd, ht, hcells⟩
    · exact absurd (congrArg (·.get c) hsame) hne
    · rw [hcells] at hne ⊢
      obtain rfl := Bank.eq_of_get_set_ne hne
      exact .inr (.inr (.inr ⟨hp, hperm.1, hpass, hperm, hd, i, t, hfetch, hk, ht, Bank.get_set_same _ _ _⟩))
  · rcases environmentStep_changes_cell henv hne with ⟨r, rfl, hr⟩ | ⟨start, vector, rfl⟩ | ⟨v, rfl, hv⟩
    · exact .inl ⟨r, rest, hs, hr⟩
    · exact .inr (.inl ⟨start, vector, rest, hs⟩)
    · exact .inr (.inr (.inl ⟨v, rest, hs, hv⟩))

/-! ## What a PE step keeps -/

/-- At EL2, or with SCR.NS 1, no access selects the Secure cell (R87). -/
theorem selectCell_ne_secure {s : State} (h : nonSecureSide s) : selectCell s.cfg s.ctx ≠ some .secure := by
  unfold selectCell cellByNS
  rcases h with hel | hns
  · rw [hel]
    cases banked s.cfg <;> simp
  · rw [hns]
    cases s.ctx.el <;> cases banked s.cfg <;> simp

/-- Settles O50: the one cell an instruction can write is the selected one, and it writes no IFAR. -/
theorem nonSecureStepsKeepTheSecureCell : Obligations.NonSecureStepsKeepTheSecureCell := by
  intro s s' hp hns h
  obtain ⟨i, _, hexec⟩ := peStep_next hp h
  obtain ⟨_, _, _, hifars, _, _⟩ := exec_frame i _ s' hexec
  refine ⟨?_, congrArg (·.get .secure) hifars⟩
  rcases exec_cells hexec with hsame | ⟨_, _, _, c, t, hc, _, hcells⟩
  · exact congrArg (·.get .secure) hsame
  · have hne : CellName.secure ≠ c := fun e => selectCell_ne_secure hns (e ▸ hc)
    rw [hcells]
    exact Bank.get_set_other _ c .secure _ hne

/-- Settles O51: the frame of exec; using up the turn touches none of these fields. -/
theorem instructionStepsTouchNoMemory : Obligations.InstructionStepsTouchNoMemory := by
  intro s s' hp h
  obtain ⟨i, _, hexec⟩ := peStep_next hp h
  obtain ⟨_, hctx, hmem, hifars, _, hpc⟩ := exec_frame i _ s' hexec
  exact ⟨fun a => congrArg (memRead · a) hmem, fun c => congrArg (·.get c) hifars, hctx, hpc⟩

/-- An accessor may stand 4 bytes after any place where one may, the wrap at 2^32 included. -/
theorem mayStandAt_add_four {iset : ISet} {pc : Word} (h : mayStandAt iset pc = true) :
    mayStandAt iset (pc + 4#32) = true := by
  cases iset <;> simp only [mayStandAt, beq_iff_eq, BitVec.toNat_add, BitVec.toNat_ofNat] at h ⊢ <;> omega

/-- Settles O52: the fetch succeeded, so pc was such a place; exec advances it by 4 in the same instruction set. -/
theorem pcStaysWhereAnAccessorMayStand : Obligations.PcStaysWhereAnAccessorMayStand := by
  intro s s' hp h
  obtain ⟨i, hfetch, hexec⟩ := peStep_next hp h
  obtain ⟨hstand, _⟩ := fetch_next _ i hfetch
  obtain ⟨_, hctx, _, _, _, hpc⟩ := exec_frame i _ s' hexec
  rw [hctx, hpc]
  exact mayStandAt_add_four hstand

/-! ## Hardwired bits and the direct write (10_state.md R28) -/

/-- A value is left by a mask's complement exactly when it has no bit of the mask. -/
theorem and_not_eq_self_iff {w : Nat} (x y : BitVec w) : x &&& ~~~y = x ↔ x &&& y = 0#w := by
  constructor
  · intro h
    calc x &&& y = (x &&& ~~~y) &&& y := by rw [h]
      _ = 0#w := by rw [BitVec.and_assoc, BitVec.and_comm (~~~y), BitVec.and_not_self]; exact BitVec.and_zero
  · intro h
    calc x &&& ~~~y = (x &&& y) ||| (x &&& ~~~y) := by rw [h, BitVec.zero_or]
      _ = x := by rw [← BitVec.and_or_distrib_left, BitVec.or_not_self, BitVec.and_allOnes]

/-- A value with no bit outside a mask is left by the mask. -/
theorem and_eq_self_of_and_not {x m : Word} (h : x &&& ~~~m = 0#32) : x &&& m = x := by
  have hiff := and_not_eq_self_iff x (~~~m)
  rw [BitVec.not_not] at hiff
  exact hiff.mpr h

theorem mayHardwire_of_classified {cfg : Config} (h : cfg.extClass = .classified) (fmt : Fmt) :
    mayHardwire cfg fmt = res0Bits fmt := by
  rw [mayHardwire, h]

theorem mayHardwire_of_unclassified {cfg : Config} (h : cfg.extClass = .unclassified) (fmt : Fmt) :
    mayHardwire cfg fmt = res0Bits fmt ||| 0x00001000#32 := by
  rw [mayHardwire, h]

/-- The hardwired bits are of those the law allows. -/
theorem hardZero_eq_wired_and (cfg : Config) (fmt : Fmt) : ∃ wired, hardZero cfg fmt = wired &&& mayHardwire cfg fmt := by
  cases fmt
  · exact ⟨cfg.wiredShort, rfl⟩
  · exact ⟨cfg.wiredLong, rfl⟩

theorem hardZero_and_not_mayHardwire (cfg : Config) (fmt : Fmt) : hardZero cfg fmt &&& ~~~(mayHardwire cfg fmt) = 0#32 := by
  obtain ⟨wired, hw⟩ := hardZero_eq_wired_and cfg fmt
  rw [hw, BitVec.and_assoc, BitVec.and_not_self]
  exact BitVec.and_zero

/-- A value with no bit that may be hardwired has no hardwired bit. -/
theorem and_hardZero_eq_zero {cfg : Config} {fmt : Fmt} {x : Word} (h : x &&& mayHardwire cfg fmt = 0#32) :
    x &&& hardZero cfg fmt = 0#32 := by
  obtain ⟨wired, hw⟩ := hardZero_eq_wired_and cfg fmt
  rw [hw, BitVec.and_comm wired, ← BitVec.and_assoc, h, BitVec.zero_and]

/-- The configuration with a given classification and wired masks. -/
def configWiring (cls : ExTClass) (hShort hLong : Word) : Config :=
  { haveEL3 := false, el3A32 := false, el2A32 := false, haveRAS := false, haveLockdown := false, extClass := cls,
    wiredShort := hShort, wiredLong := hLong, fetchByteOrder := .little }

/-- Wired masks within what the law allows are the implementation's HardZero. -/
theorem hardZero_configWiring {cls : ExTClass} {hShort hLong : Word}
    (h1 : hShort &&& ~~~(mayHardwire (configWiring cls hShort hLong) .short) = 0#32)
    (h2 : hLong &&& ~~~(mayHardwire (configWiring cls hShort hLong) .long) = 0#32) :
    hardZero (configWiring cls hShort hLong) .short = hShort ∧ hardZero (configWiring cls hShort hLong) .long = hLong :=
  ⟨and_eq_self_of_and_not h1, and_eq_self_of_and_not h2⟩

/-- Settles O26: the law is `hardZero_and_not_mayHardwire` in each classification, and two lawful masks are those of the
configuration wired by them. -/
theorem hardwiredBitsObeyTheLaw : Obligations.HardwiredBitsObeyTheLaw := by
  refine ⟨fun cfg fmt => ⟨fun hcls => ?_, fun hcls => ?_⟩, fun hShort hLong h1 h2 => ?_, fun hShort hLong h1 h2 => ?_⟩
  · rw [← mayHardwire_of_classified hcls]
    exact hardZero_and_not_mayHardwire cfg fmt
  · rw [← mayHardwire_of_unclassified hcls]
    exact hardZero_and_not_mayHardwire cfg fmt
  · exact ⟨configWiring .classified hShort hLong, rfl, hardZero_configWiring h1 h2⟩
  · exact ⟨configWiring .unclassified hShort hLong, rfl, hardZero_configWiring h1 h2⟩

/-- A direct write keeps every bit that may not be hardwired. -/
theorem directValue_and {cfg : Config} {fmt : Fmt} {m : Word} (w : Word) (h : m &&& mayHardwire cfg fmt = 0#32) :
    directValue cfg fmt w &&& m = w &&& m := by
  have hm : m &&& ~~~(hardZero cfg fmt) = m := (and_not_eq_self_iff _ _).mpr (and_hardZero_eq_zero h)
  rw [directValue, BitVec.and_assoc, BitVec.and_comm (~~~_), hm]

/-- LPAE is bit [9] alone (R32). -/
theorem lpaeOf_and_mask (v : Word) : lpaeOf (v &&& 0x00000200#32) = lpaeOf v := by
  have hmask : (0x00000200#32).extractLsb' 9 1 = BitVec.allOnes 1 := by decide
  rw [lpaeOf, lpaeOf, BitVec.extractLsb'_and, hmask, BitVec.and_allOnes]

/-- ExT is bit [12] alone (R30). -/
theorem and_mask_eq_zero_of_extOf {v : Word} (h : extOf v = 0#1) : v &&& 0x00001000#32 = 0#32 := by
  have hbit : v.getLsbD 12 = false := by simpa [extOf] using congrArg (·.getLsbD 0) h
  have htwo := BitVec.and_twoPow v 12
  rwa [hbit] at htwo

/-- No law lets an implementation hardwire LPAE, or a field bit but ExT. -/
theorem lpae_and_mayHardwire (cfg : Config) (fmt : Fmt) : 0x00000200#32 &&& mayHardwire cfg fmt = 0#32 := by
  cases hcls : cfg.extClass with
  | unclassified => rw [mayHardwire_of_unclassified hcls]; cases fmt <;> decide
  | classified => rw [mayHardwire_of_classified hcls]; cases fmt <;> decide

theorem fieldBits_and_res0Bits (fmt : Fmt) : fieldBits fmt &&& res0Bits fmt = 0#32 := by
  cases fmt <;> decide

theorem fieldBits_but_ext_and_mayHardwire (cfg : Config) (fmt : Fmt) :
    fieldBits fmt &&& ~~~0x00001000#32 &&& mayHardwire cfg fmt = 0#32 := by
  cases hcls : cfg.extClass with
  | unclassified => rw [mayHardwire_of_unclassified hcls]; cases fmt <;> decide
  | classified => rw [mayHardwire_of_classified hcls]; cases fmt <;> decide

/-- Settles O27: each part is `directValue_and` of a mask that may not be hardwired. -/
theorem directWriteStoresEveryFieldBit : Obligations.DirectWriteStoresEveryFieldBit := by
  refine fun cfg fmt w => ⟨?_, fun hcls => ?_, ?_⟩
  · rw [← lpaeOf_and_mask, directValue_and w (lpae_and_mayHardwire cfg fmt), lpaeOf_and_mask]
  · refine directValue_and w ?_
    rw [mayHardwire_of_classified hcls, fieldBits_and_res0Bits]
  · exact directValue_and w (fieldBits_but_ext_and_mayHardwire cfg fmt)

/-! ## Packing and the hardware write (10_state.md R35, 60_exceptions.md R110) -/

section Packing
variable (fs : BitVec 5) (st : BitVec 6) (fnv ext : BitVec 1)

@[simp] theorem fsField_packA : fsField (packA fs fnv ext) = fs := by revert fs fnv ext; decide
@[simp] theorem lpaeOf_packA : lpaeOf (packA fs fnv ext) = 0#1 := by revert fs fnv ext; decide
@[simp] theorem fnvOf_packA : fnvOf (packA fs fnv ext) = fnv := by revert fs fnv ext; decide
@[simp] theorem extOf_packA : extOf (packA fs fnv ext) = ext := by revert fs fnv ext; decide
@[simp] theorem packA_and_res0Bits : packA fs fnv ext &&& res0Bits .short = 0#32 := by revert fs fnv ext; decide

@[simp] theorem statusField_packB : statusField (packB st fnv ext) = st := by revert st fnv ext; decide
@[simp] theorem lpaeOf_packB : lpaeOf (packB st fnv ext) = 1#1 := by revert st fnv ext; decide
@[simp] theorem fnvOf_packB : fnvOf (packB st fnv ext) = fnv := by revert st fnv ext; decide
@[simp] theorem extOf_packB : extOf (packB st fnv ext) = ext := by revert st fnv ext; decide
@[simp] theorem packB_and_res0Bits : packB st fnv ext &&& res0Bits .long = 0#32 := by revert st fnv ext; decide

end Packing

/-- Settles O38: the laws of the two packings, one by one. -/
theorem packingLaws : Obligations.PackingLaws := fun fnv ext =>
  ⟨fun fs => ⟨fsField_packA fs fnv ext, lpaeOf_packA fs fnv ext, fnvOf_packA fs fnv ext, extOf_packA fs fnv ext,
    packA_and_res0Bits fs fnv ext⟩,
   fun st => ⟨statusField_packB st fnv ext, lpaeOf_packB st fnv ext, fnvOf_packB st fnv ext, extOf_packB st fnv ext,
    packB_and_res0Bits st fnv ext⟩⟩

/-- LPAE in a value written under a format. -/
def lpaeFor : Fmt → BitVec 1
  | .short => 0#1
  | .long => 1#1

/-- Every value the hardware writes has the layout's RES0 bits 0, LPAE telling the layout, and ExT of R112. -/
theorem statusWord_clean {cfg : Config} {fmt : Fmt} {r : FaultReport} {v : Word} (h : statusWord cfg fmt r = some v) :
    v &&& res0Bits fmt = 0#32 ∧ lpaeOf v = lpaeFor fmt ∧ extOf v = extBit cfg r.cause r.extIn := by
  rcases statusWord_some cfg fmt r v h with ⟨rfl, fs, _, rfl⟩ | ⟨rfl, st, _, rfl⟩
  · exact ⟨packA_and_res0Bits _ _ _, lpaeOf_packA _ _ _, extOf_packA _ _ _⟩
  · exact ⟨packB_and_res0Bits _ _ _, lpaeOf_packB _ _ _, extOf_packB _ _ _⟩

/-- Settles O32: `statusWord_clean` in each format. -/
theorem hardwareWritesLayoutCleanly : Obligations.HardwareWritesLayoutCleanly := by
  refine fun cfg r v => ⟨fun h => ?_, fun h => ?_⟩
  · obtain ⟨hres0, hlpae, _⟩ := statusWord_clean h
    exact ⟨hres0, hlpae⟩
  · obtain ⟨hres0, hlpae, _⟩ := statusWord_clean h
    exact ⟨hres0, hlpae⟩

theorem extBit_of_unclassified {cfg : Config} (h : cfg.extClass = .unclassified) (c : Cause) (extIn : BitVec 1) :
    extBit cfg c extIn = 0#1 := by
  rw [extBit, h]

/-- Settles O37: a hardware-written value has no bit that may be hardwired, ExT being 0 without a classification. -/
theorem writingBackKeepsAHardwareValue : Obligations.WritingBackKeepsAHardwareValue := by
  intro cfg fmt r v h
  obtain ⟨hres0, _, hext⟩ := statusWord_clean h
  refine (and_not_eq_self_iff v _).mpr (and_hardZero_eq_zero ?_)
  cases hcls : cfg.extClass with
  | classified => rw [mayHardwire_of_classified hcls, hres0]
  | unclassified =>
    rw [extBit_of_unclassified hcls] at hext
    rw [mayHardwire_of_unclassified hcls, BitVec.and_or_distrib_left, hres0, and_mask_eq_zero_of_extOf hext,
      BitVec.or_zero]

/-! ## The AArch64 name (10_state.md R23) -/

/-- Without banked cells EL1 and EL2 reach the one cell. -/
theorem selectCell_of_not_banked {cfg : Config} {x : Context} (hb : banked cfg = false) (hel : x.el = .el1 ∨ x.el = .el2) :
    selectCell cfg x = some .single := by
  rcases hel with hel | hel <;> simp [selectCell, hel, hb]

theorem aarch64Cell_of_not_banked {cfg : Config} (hb : banked cfg = false) : aarch64Cell cfg = .single := by
  simp [aarch64Cell, hb]

/-- Settles O42: the AArch64 name and the accessors at EL1 and EL2 denote one cell. -/
theorem aArch64NameSharesTheStorage : Obligations.AArch64NameSharesTheStorage := by
  constructor
  · intro s v rest j t hs hb hel hpass hperm hwf hk ht
    have hstep : step s = .next ((s.setSchedule rest).writeCell .single v) := by
      rw [step_of_environment hs, ← aarch64Cell_of_not_banked hb]; rfl
    exact ⟨_, _, hstep, rfl, exec_of_permitted hwf hk ht hpass hperm (selectCell_of_not_banked hb hel),
      State.readReg_writeReg_same _ t v⟩
  · intro s i t hb hel hpass hperm hwf hk ht
    refine ⟨_, exec_of_permitted hwf hk ht hpass hperm (selectCell_of_not_banked hb hel), ?_⟩
    have hcell : aarch64Cell s.cfg = .single := aarch64Cell_of_not_banked hb
    show (s.cells.set .single (directValue s.cfg s.ctx.fmt (s.readReg t))).get (aarch64Cell s.cfg) = _
    rw [hcell]
    exact Bank.get_set_same _ _ _

/-! ## Registers, reset, inputs -/

/-- Settles O10. -/
theorem registerFieldNamesItsRegister : Obligations.RegisterFieldNamesItsRegister :=
  ⟨regOf_fifteen, regOf_eq_some⟩

/-- Settles O41. -/
theorem resetCellsAreIndependentDraws : Obligations.ResetCellsAreIndependentDraws := ⟨rfl, rfl⟩

/-- Settles O43: each input is one update of the state with the turn used up; the byte is read back by the law of the
canonical memory. -/
theorem environmentInputsChangeOneThing : Obligations.EnvironmentInputsChangeOneThing := by
  intro s rest hwf
  refine ⟨fun x hs => ?_, fun p hs => ?_, fun t v hs => ?_, fun a b hs => ?_⟩
  · exact step_of_environment hs
  · exact step_of_environment hs
  · exact step_of_environment hs
  · exact ⟨memWrite s.mem a.toNat b, step_of_environment hs, fun x => memRead_memWrite s.mem 0 a.toNat x b hwf⟩

end Sys2Proof.Machine

/-! SUPPORT. Memory and the order of accesses (20_memory.md): an instruction's bytes as they lie in memory, the invariant
of the instruction memory, and a read after a write. -/

namespace Sys2Proof

/-! ## The decoder on what the encoder lays out (R52; 30_encoding.md R62, R63) -/

open Laws.RowMatch (accessorWord_fields)

section Fields
variable (cond : BitVec 4) (l : BitVec 1) (rt : BitVec 4)

@[simp] theorem carriesIfsr_accessorWord : carriesIfsr (accessorWord cond l rt) = true := by
  revert cond l rt; decide

@[simp] theorem condField_accessorWord : condField (accessorWord cond l rt) = cond := by
  obtain ⟨_, _, hcond, _⟩ := accessorWord_fields cond l rt
  exact hcond

@[simp] theorem lField_accessorWord : lField (accessorWord cond l rt) = l := by
  obtain ⟨_, _, _, hl⟩ := accessorWord_fields cond l rt
  exact hl

@[simp] theorem rtField_accessorWord : rtField (accessorWord cond l rt) = rt := by
  obtain ⟨_, hrt, _⟩ := accessorWord_fields cond l rt
  exact hrt

/-- The first halfword of a T32 accessor starts with 0b11101 (30_encoding.md R68). -/
theorem t32IsWide_accessorWord : t32IsWide ((accessorWord 0b1110#4 l rt).extractLsb' 16 16) = true := by
  revert l rt; decide

end Fields

/-- In A32, with an admitted condition and register, L alone says which accessor a word of IFSR is. -/
theorem decodeA32_accessorWord {cond rt : BitVec 4} (l : BitVec 1) (hcond : condAdmitted cond = true)
    (hrt : rtAdmitted rt = true) :
    decodeA32 (accessorWord cond l rt) = if l = 1#1 then .ok (.mrcA32 cond rt) else .ok (.mcrA32 cond rt) := by
  have hc : cond ≠ 0b1111#4 := bne_iff_ne.mp hcond
  have ht : rt ≠ 15#4 := bne_iff_ne.mp hrt
  simp [decodeA32, hc, ht]

/-- The same in T32, where the top four bits are 0b1110. -/
theorem decodeT32_accessorWord {rt : BitVec 4} (l : BitVec 1) (hrt : rtAdmitted rt = true) :
    decodeT32 (accessorWord 0b1110#4 l rt) = if l = 1#1 then .ok (.mrcT32 rt) else .ok (.mcrT32 rt) := by
  have ht : rt ≠ 15#4 := bne_iff_ne.mp hrt
  simp [decodeT32, t32IsWide_accessorWord, ht]

theorem decodeWord_encodeWord {i : Instr} (h : i.wf = true) : decodeWord i.iset (encodeWord i) = .ok i := by
  cases i with
  | mrcA32 cond rt | mcrA32 cond rt =>
    obtain ⟨hcond, hrt⟩ := Bool.and_eq_true_iff.mp h
    exact decodeA32_accessorWord _ hcond hrt
  | mrcT32 rt | mcrT32 rt => exact decodeT32_accessorWord _ h

/-- On four bytes and more the decoder is the word decoder of the first four. -/
theorem decode_wordBytes_append (iset : ISet) (order : ByteOrder) (w : Word) (rest : List Byte) :
    decode iset order (wordBytes iset order w ++ rest) = (decodeWord iset w).map (·, rest) := by
  obtain ⟨b0, b1, b2, b3, hbytes, hword⟩ := bytesWord_wordBytes iset order w
  rw [hbytes, List.cons_append, List.cons_append, List.cons_append, List.cons_append, List.nil_append, decode, hword]
  cases decodeWord iset w <;> rfl

/-- Settles O2: the bytes give back the encoded word, and the word the instruction. -/
theorem decodeOfEncodeIsIdentity : Obligations.DecodeOfEncodeIsIdentity := by
  intro order i rest h
  rw [encode, decode_wordBytes_append, decodeWord_encodeWord h]
  rfl

end Sys2Proof

namespace Sys2Proof.Machine

/-! ## The invariant of the memory and the draws (R52, R53, R57; 10_state.md R44) -/

/-- Settles O45. -/
theorem resetHasTheInvariant : Obligations.ResetHasTheInvariant := ⟨Memory.wf_reset, le_rfl⟩

@[simp] theorem reportIfar_mem (r : FaultReport) (s : State) : (reportIfar r s).mem = s.mem := by
  rcases reportIfar_cases r s with ⟨_, h⟩ | ⟨_, h⟩ <;> simp [h]

/-- The environment writes memory only by the event that leaves a byte there (R57). -/
theorem environmentStep_mem {e : EnvEvent} {s s' : State} (h : environmentStep e s = .next s') :
    s'.mem = s.mem ∨ ∃ a b, e = .memoryByte a b ∧ s'.mem = memWrite s.mem a.toNat b := by
  rcases environmentStep_next e s s' h with ⟨r, v, _, _, rfl⟩ | ⟨start, vector, _, rfl⟩ | ⟨c, _, rfl⟩ |
    ⟨target, _, rfl⟩ | ⟨t, v, _, rfl⟩ | ⟨a, b, he, rfl⟩ | ⟨v, _, rfl⟩
  case inl => exact .inl (reportIfar_mem r (s.writeCell r.cell v))
  case inr.inr.inr.inr.inr.inl => exact .inr ⟨a, b, he, rfl⟩
  all_goals exact .inl rfl

/-- A step leaves memory as it was or writes one byte at a 32-bit address. -/
theorem step_mem {s s' : State} (h : step s = .next s') :
    s'.mem = s.mem ∨ ∃ (a : Word) (b : Byte), s'.mem = memWrite s.mem a.toNat b := by
  rcases step_next s s' h with ⟨_, i, _, hexec⟩ | ⟨e, rest, _, henv⟩
  · obtain ⟨_, _, hmem, _⟩ := exec_frame i _ s' hexec
    exact .inl hmem
  · rcases environmentStep_mem henv with hmem | ⟨a, b, _, hmem⟩
    · exact .inl hmem
    · exact .inr ⟨a, b, hmem⟩

/-- Settles O44: the one write a step can make keeps the canonical form, and no step takes back a draw. -/
theorem stepKeepsTheInvariant : Obligations.StepKeepsTheInvariant := by
  rintro s s' ⟨hwf, hdraws⟩ h
  obtain ⟨_, hle⟩ := stepKeepsTheConfiguration s s' h
  refine ⟨?_, hdraws.trans hle⟩
  rcases step_mem h with hmem | ⟨a, b, hmem⟩
  · rwa [hmem]
  · rw [hmem]
    exact Memory.wf_memWrite s.mem a b hwf

/-! ## A read after a write (R55) -/

/-- A read transferred from the cell that a write transferred to gives what the direct write stored. -/
theorem transferOf_read_after_write (s : State) (a b : Fin 15) (c : CellName) :
    (transferOf .read b c (transferOf .write a c s).advance).readReg b = directValue s.cfg s.ctx.fmt (s.readReg a) := by
  rw [transferOf, State.readReg_writeReg_same]
  exact Bank.get_set_same s.cells c _

/-- Settles O23: the write changes neither context nor configuration, so the read is permitted in the state it leaves
and selects the same cell. -/
theorem readAfterWriteReturnsMaskedValue : Obligations.ReadAfterWriteReturnsMaskedValue := by
  intro i j s a b hi hj hki hkj hra hrb hpass hwrite hread
  have ⟨hel, _⟩ := hwrite
  obtain ⟨c, hc⟩ := selectCell_isSome s.cfg s.ctx hel
  have hstep1 := exec_of_permitted hi hki hra hpass hwrite hc
  have hstep2 := exec_of_permitted (s := (transferOf .write a c s).advance) hj hkj hrb hpass hread hc
  exact ⟨_, _, hstep1, hstep2, transferOf_read_after_write s a b c⟩

end Sys2Proof.Machine

/-! SUPPORT. Encoding and the failed condition (30_encoding.md): which words the decoder accepts, which it refuses under
which name, what the PE's turn executes, and how an accessor ends when its condition fails or its fields are refused. -/

namespace Sys2Proof

open Laws.RowMatch (accessorWord_fields)

/-! ## Match by mask and the fields of a word (30_encoding.md R66) -/

/-- A field that the mask holds whole is read off the match value. -/
theorem extractLsb'_of_match {w m v : Word} (h : w &&& m = v) {start len : Nat}
    (hm : m.extractLsb' start len = BitVec.allOnes len) : w.extractLsb' start len = v.extractLsb' start len := by
  rw [← h, BitVec.extractLsb'_and, hm, BitVec.and_allOnes]

/-- A match by a mask gives the match by every part of the mask. -/
theorem match_of_submask {w m v : Word} (h : w &&& m = v) {m' : Word} (hm : m &&& m' = m') : w &&& m' = v &&& m' := by
  rw [← h, BitVec.and_assoc, hm]

/-- IFSR's tuple and the fixed bits are the match of the two A32 rows without bit 20, in which alone they differ. -/
theorem carriesIfsr_iff_match (w : Word) : carriesIfsr w = true ↔ w &&& 0x0FEF0FFF#32 = 0x0E050F30#32 := by
  constructor
  · intro h
    obtain ⟨hmatch, _⟩ := accessorWord_fields (condField w) (lField w) (rtField w)
    rwa [← word_of_carriesIfsr w h] at hmatch
  · intro h
    have hmajor : majorField w = 0b1110#4 := extractLsb'_of_match h (by decide)
    have hbit4 : bit4Field w = 1#1 := extractLsb'_of_match h (by decide)
    have hcoproc : coprocField w = 0b1111#4 := extractLsb'_of_match h (by decide)
    have hopc1 : opc1Field w = 0b000#3 := extractLsb'_of_match h (by decide)
    have hcrn : crnField w = 0b0101#4 := extractLsb'_of_match h (by decide)
    have hcrm : crmField w = 0b0000#4 := extractLsb'_of_match h (by decide)
    have hopc2 : opc2Field w = 0b001#3 := extractLsb'_of_match h (by decide)
    simp [carriesIfsr, tupleOf, ifsrTuple, hmajor, hbit4, hcoproc, hopc1, hcrn, hcrm, hopc2]

/-- Under each mask a word of IFSR keeps, of condition and L, those the mask holds. -/
theorem accessorWord_and_masks : ∀ (cond : BitVec 4) (l : BitVec 1) (rt : BitVec 4),
    accessorWord cond l rt &&& 0x0FFF0FFF#32 = accessorWord 0#4 l 0#4 ∧
    accessorWord cond l rt &&& 0xFFEF0FFF#32 = accessorWord cond 0#1 0#4 ∧
    accessorWord cond l rt &&& 0xFFFF0FFF#32 = accessorWord cond l 0#4 := by
  decide

/-- The match of an A32 row, whose match value is the row's word with cond and Rt 0. -/
theorem match_rowA32_iff (w : Word) (l : BitVec 1) :
    w &&& 0x0FFF0FFF#32 = accessorWord 0#4 l 0#4 ↔ carriesIfsr w = true ∧ lField w = l := by
  constructor
  · intro h
    refine ⟨(carriesIfsr_iff_match w).mpr ?_, ?_⟩
    · rw [match_of_submask h (by decide)]
      exact (accessorWord_fields 0#4 l 0#4).1
    · rw [lField, extractLsb'_of_match h (by decide)]
      exact lField_accessorWord 0#4 l 0#4
  · rintro ⟨hw, rfl⟩
    obtain ⟨hmatch, _, _⟩ := accessorWord_and_masks (condField w) (lField w) (rtField w)
    rwa [← word_of_carriesIfsr w hw] at hmatch

/-- The two T32 rows without bit 20. -/
theorem match_rowsT32_iff (w : Word) :
    w &&& 0xFFEF0FFF#32 = 0xEE050F30#32 ↔ carriesIfsr w = true ∧ condField w = 0b1110#4 := by
  constructor
  · intro h
    exact ⟨(carriesIfsr_iff_match w).mpr (match_of_submask h (by decide)), extractLsb'_of_match h (by decide)⟩
  · rintro ⟨hw, hcond⟩
    obtain ⟨_, hmatch, _⟩ := accessorWord_and_masks (condField w) (lField w) (rtField w)
    rw [← word_of_carriesIfsr w hw, hcond] at hmatch
    exact hmatch

/-- The match of a T32 row. -/
theorem match_rowT32_iff (w : Word) (l : BitVec 1) :
    w &&& 0xFFFF0FFF#32 = accessorWord 0b1110#4 l 0#4 ↔
      carriesIfsr w = true ∧ condField w = 0b1110#4 ∧ lField w = l := by
  constructor
  · intro h
    have hA32 : w &&& 0x0FFF0FFF#32 = accessorWord 0#4 l 0#4 := by
      rw [match_of_submask h (by decide)]
      exact (accessorWord_and_masks 0b1110#4 l 0#4).1
    obtain ⟨hw, hl⟩ := (match_rowA32_iff w l).mp hA32
    refine ⟨hw, ?_, hl⟩
    rw [condField, extractLsb'_of_match h (by decide)]
    exact condField_accessorWord 0b1110#4 l 0#4
  · rintro ⟨hw, hcond, rfl⟩
    obtain ⟨_, _, hmatch⟩ := accessorWord_and_masks (condField w) (lField w) (rtField w)
    rw [← word_of_carriesIfsr w hw, hcond] at hmatch
    exact hmatch

/-! ## What the decoder answers (R66 to R68) -/

/-- Bit 20 is 1 in MRC and 0 in MCR. -/
theorem lField_cases (w : Word) : lField w = 1#1 ∨ lField w = 0#1 := by
  generalize lField w = l
  revert l
  decide

/-- The A32 words that decode, and to what. -/
theorem decodeA32_eq_ok_iff (w : Word) (i : Instr) :
    decodeA32 w = .ok i ↔ carriesIfsr w = true ∧ condField w ≠ 0b1111#4 ∧ rtField w ≠ 15#4 ∧
      ((lField w = 1#1 ∧ i = .mrcA32 (condField w) (rtField w)) ∨
       (lField w = 0#1 ∧ i = .mcrA32 (condField w) (rtField w))) := by
  unfold decodeA32
  split_ifs with hw hcond hrt hl
  · simp [hcond]
  · simp [hrt]
  · simp [hw, hcond, hrt, hl, eq_comm]
  · have hl0 : lField w = 0#1 := (lField_cases w).resolve_left hl
    simp [hw, hcond, hrt, hl0, eq_comm]
  · simp [hw]

/-- A T32 accessor's word starts a 32-bit instruction (R68). -/
theorem t32IsWide_of_carriesIfsr {w : Word} (hw : carriesIfsr w = true) (hcond : condField w = 0b1110#4) :
    t32IsWide (w.extractLsb' 16 16) = true := by
  have hwide := t32IsWide_accessorWord (lField w) (rtField w)
  rwa [← hcond, ← word_of_carriesIfsr w hw] at hwide

/-- A word that matches no T32 row is refused, under the name its first halfword gives (R67, R68). -/
theorem decodeT32_of_no_row {w : Word} (h : ¬(carriesIfsr w = true ∧ condField w = 0b1110#4)) :
    decodeT32 w = if t32IsWide (w.extractLsb' 16 16) then .error .notAnAccessor else .error .narrowT32 := by
  have hno : (carriesIfsr w && condField w == 0b1110#4) = false := by simpa using h
  simp [decodeT32, hno]

/-- The T32 words that decode, and to what. -/
theorem decodeT32_eq_ok_iff (w : Word) (i : Instr) :
    decodeT32 w = .ok i ↔ carriesIfsr w = true ∧ condField w = 0b1110#4 ∧ rtField w ≠ 15#4 ∧
      ((lField w = 1#1 ∧ i = .mrcT32 (rtField w)) ∨ (lField w = 0#1 ∧ i = .mcrT32 (rtField w))) := by
  by_cases hrow : carriesIfsr w = true ∧ condField w = 0b1110#4
  · obtain ⟨hw, hcond⟩ := hrow
    have hwide := t32IsWide_of_carriesIfsr hw hcond
    by_cases hrt : rtField w = 15#4
    · simp [decodeT32, hwide, hw, hcond, hrt]
    · rcases lField_cases w with hl | hl <;> simp [decodeT32, hwide, hw, hcond, hrt, hl, eq_comm]
  · constructor
    · intro h
      rw [decodeT32_of_no_row hrow] at h
      split_ifs at h
    · rintro ⟨hw, hcond, _⟩
      exact absurd ⟨hw, hcond⟩ hrow

/-- A word that decodes is the word of a well-formed instruction of its set. -/
theorem encodeWord_of_decodeWord {iset : ISet} {w : Word} {i : Instr} (h : decodeWord iset w = .ok i) :
    i.wf = true ∧ i.iset = iset ∧ w = encodeWord i := by
  cases iset with
  | a32 =>
    obtain ⟨hw, hcond, hrt, hrow⟩ := (decodeA32_eq_ok_iff w i).mp h
    have hword := word_of_carriesIfsr w hw
    have hwf : (condAdmitted (condField w) && rtAdmitted (rtField w)) = true :=
      Bool.and_eq_true_iff.mpr ⟨bne_iff_ne.mpr hcond, bne_iff_ne.mpr hrt⟩
    rcases hrow with ⟨hl, rfl⟩ | ⟨hl, rfl⟩ <;> rw [hl] at hword <;> exact ⟨hwf, rfl, hword⟩
  | t32 =>
    obtain ⟨hw, hcond, hrt, hrow⟩ := (decodeT32_eq_ok_iff w i).mp h
    have hword := word_of_carriesIfsr w hw
    have hwf : rtAdmitted (rtField w) = true := bne_iff_ne.mpr hrt
    rw [hcond] at hword
    rcases hrow with ⟨hl, rfl⟩ | ⟨hl, rfl⟩ <;> rw [hl] at hword <;> exact ⟨hwf, rfl, hword⟩

/-- Bytes that decode are the four of a word that decodes, and the rest. -/
theorem decode_eq_ok {iset : ISet} {order : ByteOrder} {bytes rest : List Byte} {i : Instr}
    (h : decode iset order bytes = .ok (i, rest)) :
    ∃ w, decodeWord iset w = .ok i ∧ bytes = wordBytes iset order w ++ rest := by
  unfold decode at h
  split at h
  · rename_i b0 b1 b2 b3 tail
    split at h
    · rename_i j hword
      cases h
      exact ⟨_, hword, by rw [wordBytes_bytesWord]; rfl⟩
    · cases h
  · cases h

/-- Settles O3: the bytes are those of a word that decodes, and such a word is an instruction's encoding. -/
theorem decodedBytesAreTheEncoding : Obligations.DecodedBytesAreTheEncoding := by
  intro iset order bytes rest i h
  obtain ⟨w, hdecode, hbytes⟩ := decode_eq_ok h
  obtain ⟨hwf, rfl, rfl⟩ := encodeWord_of_decodeWord hdecode
  exact ⟨hwf, rfl, hbytes⟩

/-- Settles O4: a row's match is IFSR's tuple with the row's L (and 0b1110 in T32), which is what the decoder tests. -/
theorem decoderAcceptsExactlyTheTableRows : Obligations.DecoderAcceptsExactlyTheTableRows := by
  intro w i
  have hmrcA32 : w &&& 0x0FFF0FFF#32 = 0x0E150F30#32 ↔ carriesIfsr w = true ∧ lField w = 1#1 :=
    match_rowA32_iff w 1#1
  have hmcrA32 : w &&& 0x0FFF0FFF#32 = 0x0E050F30#32 ↔ carriesIfsr w = true ∧ lField w = 0#1 :=
    match_rowA32_iff w 0#1
  have hmrcT32 : w &&& 0xFFFF0FFF#32 = 0xEE150F30#32 ↔
      carriesIfsr w = true ∧ condField w = 0b1110#4 ∧ lField w = 1#1 := match_rowT32_iff w 1#1
  have hmcrT32 : w &&& 0xFFFF0FFF#32 = 0xEE050F30#32 ↔
      carriesIfsr w = true ∧ condField w = 0b1110#4 ∧ lField w = 0#1 := match_rowT32_iff w 0#1
  refine ⟨(decodeA32_eq_ok_iff w i).trans ⟨?_, ?_⟩, (decodeT32_eq_ok_iff w i).trans ⟨?_, ?_⟩⟩
  · rintro ⟨hw, hcond, hrt, ⟨hl, hi⟩ | ⟨hl, hi⟩⟩
    · exact ⟨hcond, hrt, .inl ⟨hmrcA32.mpr ⟨hw, hl⟩, hi⟩⟩
    · exact ⟨hcond, hrt, .inr ⟨hmcrA32.mpr ⟨hw, hl⟩, hi⟩⟩
  · rintro ⟨hcond, hrt, ⟨hrow, hi⟩ | ⟨hrow, hi⟩⟩
    · obtain ⟨hw, hl⟩ := hmrcA32.mp hrow
      exact ⟨hw, hcond, hrt, .inl ⟨hl, hi⟩⟩
    · obtain ⟨hw, hl⟩ := hmcrA32.mp hrow
      exact ⟨hw, hcond, hrt, .inr ⟨hl, hi⟩⟩
  · rintro ⟨hw, hcond, hrt, ⟨hl, hi⟩ | ⟨hl, hi⟩⟩
    · exact ⟨hrt, .inl ⟨hmrcT32.mpr ⟨hw, hcond, hl⟩, hi⟩⟩
    · exact ⟨hrt, .inr ⟨hmcrT32.mpr ⟨hw, hcond, hl⟩, hi⟩⟩
  · rintro ⟨hrt, ⟨hrow, hi⟩ | ⟨hrow, hi⟩⟩
    · obtain ⟨hw, hcond, hl⟩ := hmrcT32.mp hrow
      exact ⟨hw, hcond, hrt, .inl ⟨hl, hi⟩⟩
    · obtain ⟨hw, hcond, hl⟩ := hmcrT32.mp hrow
      exact ⟨hw, hcond, hrt, .inr ⟨hl, hi⟩⟩

/-- Settles O5: the clauses are the decoder's refusing branches, in its order. -/
theorem wordsOutsideTheTableAreRefusedByName : Obligations.WordsOutsideTheTableAreRefusedByName := by
  intro w
  rw [ne_eq, ne_eq (_ &&& 0xFFEF0FFF#32), ← carriesIfsr_iff_match, match_rowsT32_iff]
  refine ⟨fun hw => if_neg hw, fun hw hcond => ?_, fun hw hcond hrt => ?_, fun hrow hwide => ?_, fun hrow hwide => ?_,
    fun hrow hrt => ?_⟩
  · exact (if_pos hw).trans (if_pos hcond)
  · exact (if_pos hw).trans ((if_neg hcond).trans (if_pos hrt))
  · exact (decodeT32_of_no_row hrow).trans (if_pos hwide)
  · rw [decodeWord, decodeT32_of_no_row hrow, hwide]
    rfl
  · obtain ⟨hw, hcond⟩ := hrow
    have hrt' : rtField w = 15#4 := hrt
    simp [decodeWord, decodeT32, t32IsWide_of_carriesIfsr hw hcond, hw, hcond, hrt']

/-- Settles O1, by running the decoder on the seven words. -/
theorem specWordsDecode : Obligations.SpecWordsDecode := ⟨rfl, rfl, rfl, rfl, rfl, rfl, rfl⟩

end Sys2Proof

namespace Sys2Proof.Machine

/-! ## The failed condition (R64, D3) -/

/-- A well-formed instruction is the same accessor in every state. -/
theorem exec_eq_transferOf_of_wf {i : Instr} (hwf : i.wf = true) :
    ∃ t, ∀ s, exec i s = accessor (accessKindOf i) (transferOf (accessKindOf i) t) s := by
  rcases exec_isAccess i with ⟨r, hrefused⟩ | ⟨t, _, haccess⟩
  · obtain ⟨transfer, hexec⟩ := exec_eq_accessor_of_wf i State.reset hwf
    exact absurd (hexec.symm.trans (hrefused State.reset)) (accessor_not_refused _ _ _ r)
  · exact ⟨t, haccess⟩

section FailedCondition
variable {k : AccessKind} {s : State} (transfer : CellName → State → State)

theorem accessor_of_failed_permitted (hfail : s.ctx.conditionPassed = false) (hperm : permitted k s.cfg s.ctx) :
    accessor k transfer s = .next s.advance := by
  have ⟨hel, _⟩ := hperm
  obtain ⟨c, hc⟩ := selectCell_isSome s.cfg s.ctx hel
  have hauth : authorise k s = .ok c := authorise_of k s c ((accessCheck_none_iff k _ _).mpr hperm) hc
  simp [accessor, hauth, State.conditionPassed, hfail]

/-- With the condition passed, a check that does not pass is the accessor's answer. -/
theorem accessor_of_passed_fault {f : Fault} (hpass : s.ctx.conditionPassed = true)
    (hcheck : accessCheck k s.cfg s.ctx = some f) : accessor k transfer s = .fault f := by
  simp [accessor, authorise_of_fault k s f hcheck, State.conditionPassed, hpass, raise]

/-- With the condition failed, the free choice says whether a check that does not pass stops the accessor (log 9). -/
theorem accessor_of_failed_fault {f : Fault} (hfail : s.ctx.conditionPassed = false)
    (hcheck : accessCheck k s.cfg s.ctx = some f) :
    accessor k transfer s =
      if Config.failedConditionTakesException s.draws then .fault f else .next (s.advance.drawn 1) := by
  simp [accessor, authorise_of_fault k s f hcheck, State.conditionPassed, hfail, raise]

end FailedCondition

/-- The access check does not look at the condition (40_sysreg_access.md R86). -/
theorem accessCheck_conditionPassed (k : AccessKind) (cfg : Config) (x : Context) (b : Bool) :
    accessCheck k cfg { x with conditionPassed := b } = accessCheck k cfg x := by
  cases k <;> rfl

/-- Settles O13: a well-formed instruction is an accessor, and its access is authorised. -/
theorem failedConditionOnlyAdvances : Obligations.FailedConditionOnlyAdvances := by
  intro i s hwf hfail hperm
  obtain ⟨t, hexec⟩ := exec_eq_transferOf_of_wf hwf
  rw [hexec s]
  exact accessor_of_failed_permitted _ hfail hperm

/-- Settles O14: the check's stop is the same with the condition passed; the free choice decides whether it is taken. -/
theorem failedConditionMayStillStop : Obligations.FailedConditionMayStillStop := by
  intro i s hwf hfail hforbidden
  obtain ⟨t, hexec⟩ := exec_eq_transferOf_of_wf hwf
  obtain ⟨f, hcheck⟩ : ∃ f, accessCheck (accessKindOf i) s.cfg s.ctx = some f :=
    Option.ne_none_iff_exists'.mp fun h => hforbidden ((accessCheck_none_iff _ _ _).mp h)
  have hfailed := (hexec s).trans (accessor_of_failed_fault _ hfail hcheck)
  cases hchoice : Config.failedConditionTakesException s.draws with
  | false => exact .inl (by rw [hfailed, hchoice]; rfl)
  | true =>
    refine .inr ⟨f, by rw [hfailed, hchoice]; rfl, ?_⟩
    rw [hexec]
    exact accessor_of_passed_fault _ rfl ((accessCheck_conditionPassed _ _ _ true).trans hcheck)

/-! ## The refused fields (R63, R67) -/

theorem readAccessor_fifteen (s : State) : readAccessor 15#4 s = .refused .registerFifteen := by
  rw [readAccessor, regOf_fifteen]

theorem writeAccessor_fifteen (s : State) : writeAccessor 15#4 s = .refused .registerFifteen := by
  rw [writeAccessor, regOf_fifteen]

theorem underA32Condition_fifteen (run : State → Answer) (s : State) :
    underA32Condition 0b1111#4 run s = .refused .conditionUnallocated := if_pos rfl

/-- Settles O21: an admitted condition leaves the accessor, which names no register. -/
theorem registerFifteenIsRefused : Obligations.RegisterFifteenIsRefused := fun cond s hcond =>
  ⟨(underA32Condition_of cond _ s hcond).trans (readAccessor_fifteen s),
   (underA32Condition_of cond _ s hcond).trans (writeAccessor_fifteen s),
   readAccessor_fifteen s, writeAccessor_fifteen s⟩

/-- Settles O22: the condition field is looked at before the register. -/
theorem conditionFifteenIsRefused : Obligations.ConditionFifteenIsRefused := fun rt s =>
  ⟨underA32Condition_fifteen (readAccessor rt) s, underA32Condition_fifteen (writeAccessor rt) s⟩

/-! ## The PE's turn (R66; 20_memory.md R52, R53) -/

theorem fetchByte_of_memRead {s : State} {k : Nat} {b : Byte}
    (h : memRead s.mem (s.pc + BitVec.ofNat 32 k).toNat = some b) : fetchByte s k = .next b := by
  simp only [fetchByte, h]

/-- Four bytes from pc on, all of them written, are fetched. -/
theorem fetchBytes_of_memRead {s : State} {b0 b1 b2 b3 : Byte} (h0 : memRead s.mem s.pc.toNat = some b0)
    (h1 : memRead s.mem (s.pc + 1#32).toNat = some b1) (h2 : memRead s.mem (s.pc + 2#32).toNat = some b2)
    (h3 : memRead s.mem (s.pc + 3#32).toNat = some b3) : fetchBytes s = .next [b0, b1, b2, b3] := by
  have h0' : fetchByte s 0 = .next b0 := fetchByte_of_memRead (by rwa [BitVec.add_zero])
  rw [fetchBytes, h0', fetchByte_of_memRead h1, fetchByte_of_memRead h2, fetchByte_of_memRead h3]

theorem fetch_of_decode {s : State} {bytes rest : List Byte} {i : Instr} (hpc : mayStandAt s.ctx.iset s.pc = true)
    (hbytes : fetchBytes s = .next bytes) (hdecode : decode s.ctx.iset s.cfg.fetchByteOrder bytes = .ok (i, rest)) :
    fetch s = .next i := by
  simp [fetch, hpc, hbytes, hdecode]

theorem instructionStep_of_fetch {s : State} {i : Instr} (h : fetch s = .next i) : instructionStep s = exec i s := by
  rw [instructionStep, h]

/-- Settles O6: the bytes that decode are the ones fetched, in the state with the turn used up. -/
theorem stepRunsDecodedInstruction : Obligations.StepRunsDecodedInstruction := by
  intro s b0 b1 b2 b3 i rest hturn hpc h0 h1 h2 h3 hdecode
  have hbytes : fetchBytes (afterTurn s) = .next [b0, b1, b2, b3] := fetchBytes_of_memRead h0 h1 h2 h3
  have hfetch : fetch (afterTurn s) = .next i := fetch_of_decode hpc hbytes hdecode
  rw [step_of_peTurn s hturn, instructionStep_of_fetch hfetch]
  rfl

end Sys2Proof.Machine

/-! SUPPORT. The accessors (40_sysreg_access.md): which check stops them, which cell they reach, what they transfer and
leave unchanged, and which changes of the state they do not see. -/

namespace Sys2Proof.Machine

/-! ## Updates of the state that an access does not see -/

/-- An access of kind k at s answers alike before and after the update g: g changes nothing that the authorisation, the
condition and the free choice read, and commutes with what the accessor writes. -/
structure Unseen (k : AccessKind) (g : State → State) (s : State) : Prop where
  authorise_eq : authorise k (g s) = authorise k s
  conditionPassed_eq : (g s).conditionPassed = s.conditionPassed
  draws_eq : (g s).draws = s.draws
  advance_eq : ∀ u, (g u).advance = g u.advance
  drawn_eq : ∀ u n, (g u).drawn n = g (u.drawn n)
  transferOf_eq : ∀ t c, selectCell s.cfg s.ctx = some c → transferOf k t c (g s) = g (transferOf k t c s)

theorem accessor_of_unseen {k : AccessKind} {g : State → State} {s : State} (h : Unseen k g s) (t : Fin 15) :
    accessor k (transferOf k t) (g s) = seenThrough g (accessor k (transferOf k t) s) := by
  unfold accessor
  rw [h.authorise_eq, h.conditionPassed_eq, h.draws_eq]
  cases hauth : authorise k s with
  | ok c =>
    obtain ⟨_, hc⟩ := authorise_ok k s c hauth
    cases s.conditionPassed with
    | true =>
      have htransfer := congrArg State.advance (h.transferOf_eq t c hc)
      exact congrArg Host.Outcome.next (htransfer.trans (h.advance_eq _))
    | false => exact congrArg Host.Outcome.next (h.advance_eq s)
  | error f =>
    dsimp only
    split
    · rfl
    · exact congrArg Host.Outcome.next ((congrArg (·.drawn 1) (h.advance_eq s)).trans (h.drawn_eq _ 1))

/-- An instruction commutes with an update that its access does not see. -/
theorem exec_of_unseen {i : Instr} {g : State → State} {s : State} (h : Unseen (accessKindOf i) g s) :
    exec i (g s) = seenThrough g (exec i s) := by
  rcases exec_isAccess i with ⟨r, hrefused⟩ | ⟨t, _, haccess⟩
  · rw [hrefused, hrefused]; rfl
  · rw [haccess, haccess]; exact accessor_of_unseen h t

/-! ## The Secure cell from the Non-secure side (R87, R130) -/

@[simp] theorem State.hideSecure_schedule (s : State) : s.hideSecure.schedule = s.schedule := rfl
@[simp] theorem State.hideSecure_ctx (s : State) : s.hideSecure.ctx = s.ctx := rfl

/-- Writes of two different cells commute. -/
theorem Bank.set_comm (b : Bank) {c d : CellName} (h : c ≠ d) (v w : Word) :
    (b.set c v).set d w = (b.set d w).set c v := by
  refine Bank.ext_get _ _ fun e => ?_
  simp only [Bank.get_set]
  by_cases hed : e = d
  · simp [hed, h.symm]
  · simp [hed]

/-- Blanking the Secure cell commutes with a transfer to or from any other cell. -/
theorem transferOf_hideSecure (k : AccessKind) (t : Fin 15) {c : CellName} (hc : c ≠ .secure) (s : State) :
    transferOf k t c s.hideSecure = (transferOf k t c s).hideSecure := by
  cases k with
  | read =>
    have hread : s.hideSecure.readCell c = s.readCell c := Bank.get_set_other s.cells .secure c 0#32 hc
    rw [transferOf, hread]; rfl
  | write =>
    exact congrArg (fun cells => { s.hideSecure with cells := cells })
      (Bank.set_comm s.cells hc.symm 0#32 (directValue s.cfg s.ctx.fmt (s.readReg t)))

/-- No access on the Non-secure side sees the Secure cell or its IFAR: it selects another cell. -/
theorem hideSecure_unseen (k : AccessKind) {s : State} (h : nonSecureSide s) : Unseen k State.hideSecure s where
  authorise_eq := rfl
  conditionPassed_eq := rfl
  draws_eq := rfl
  advance_eq _ := rfl
  drawn_eq _ _ := rfl
  transferOf_eq t _ hc := transferOf_hideSecure k t (fun hsecure => selectCell_ne_secure h (hsecure ▸ hc)) s

/-- The fetch reads no cell and no IFAR. -/
theorem fetch_hideSecure (s : State) : fetch s.hideSecure = fetch s := rfl

theorem instructionStep_hideSecure {s : State} (h : nonSecureSide s) :
    instructionStep s.hideSecure = seenThrough State.hideSecure (instructionStep s) := by
  unfold instructionStep
  rw [fetch_hideSecure]
  cases fetch s with
  | next i => exact exec_of_unseen (hideSecure_unseen _ h)
  | fault f => rfl
  | refused r => rfl

/-- On the PE's turn on the Non-secure side, what is seen of a step without the Secure cell is a function of what is
seen of the state without it. -/
theorem step_seen_without_secure {s : State} (hp : peTurn s) (h : nonSecureSide s) :
    seenThrough State.hideSecure (step s) = instructionStep (afterTurn s.hideSecure) := by
  rw [step_of_peTurn s hp]
  exact (instructionStep_hideSecure (s := afterTurn s) h).symm

/-- Settles O49: the turn and the side are the same in both states, and what is seen of each step is a function of the
state with the Secure cell blanked. -/
theorem nonSecureStepsDoNotSeeTheSecureCell : Obligations.NonSecureStepsDoNotSeeTheSecureCell := by
  intro s1 s2 hp hside heq
  have hschedule : s1.schedule = s2.schedule := by simpa using congrArg State.schedule heq
  have hctx : s1.ctx = s2.ctx := by simpa using congrArg State.ctx heq
  have hp2 : peTurn s2 := by rw [peTurn, ← hschedule]; exact hp
  have hside2 : nonSecureSide s2 := by rw [nonSecureSide, ← hctx]; exact hside
  rw [step_seen_without_secure hp hside, step_seen_without_secure hp2 hside2, heq]

/-! ## What an accessor transfers (R80, R81) -/

/-- A register field that names a register is admitted. -/
theorem ne_fifteen_of_regOf {rt : BitVec 4} {t : Fin 15} (h : regOf rt = some t) : rt ≠ 15#4 := by
  rintro rfl
  rw [regOf_fifteen] at h
  cases h

section Rows
variable {cond rt : BitVec 4}

theorem mrcA32_wf (hcond : cond ≠ 0b1111#4) (hrt : rt ≠ 15#4) : (Instr.mrcA32 cond rt).wf = true :=
  Bool.and_eq_true_iff.mpr ⟨bne_iff_ne.mpr hcond, bne_iff_ne.mpr hrt⟩

theorem mcrA32_wf (hcond : cond ≠ 0b1111#4) (hrt : rt ≠ 15#4) : (Instr.mcrA32 cond rt).wf = true :=
  Bool.and_eq_true_iff.mpr ⟨bne_iff_ne.mpr hcond, bne_iff_ne.mpr hrt⟩

theorem mrcT32_wf (hrt : rt ≠ 15#4) : (Instr.mrcT32 rt).wf = true := bne_iff_ne.mpr hrt

theorem mcrT32_wf (hrt : rt ≠ 15#4) : (Instr.mcrT32 rt).wf = true := bne_iff_ne.mpr hrt

end Rows

/-- Settles O8: both rows are well-formed reads of the same register. -/
theorem readAccessorTransfersSelectedCell : Obligations.ReadAccessorTransfersSelectedCell := by
  intro cond rt s t c hcond ht hpass hperm hc
  have hrt : rt ≠ 15#4 := ne_fifteen_of_regOf ht
  exact ⟨exec_of_permitted (mrcA32_wf hcond hrt) rfl ht hpass hperm hc,
    exec_of_permitted (mrcT32_wf hrt) rfl ht hpass hperm hc⟩

/-- Settles O9: both rows are well-formed writes from the same register. -/
theorem writeAccessorStoresMaskedRegister : Obligations.WriteAccessorStoresMaskedRegister := by
  intro cond rt s t c hcond ht hpass hperm hc
  have hrt : rt ≠ 15#4 := ne_fifteen_of_regOf ht
  exact ⟨exec_of_permitted (mcrA32_wf hcond hrt) rfl ht hpass hperm hc,
    exec_of_permitted (mcrT32_wf hrt) rfl ht hpass hperm hc⟩

/-! ## What an accessor leaves unchanged -/

/-- The registers after an instruction that goes on: as before, or R[t] written by an MRC (R80). -/
theorem exec_gpr {i : Instr} {s s' : State} (h : exec i s = .next s') :
    s'.gpr = s.gpr ∨
    (accessKindOf i = .read ∧ ∃ c t, regOf i.rt = some t ∧ s'.gpr = s.gpr.set t (s.readCell c)) := by
  rcases exec_isAccess i with ⟨r, hrefused⟩ | ⟨t, ht, haccess⟩
  · rw [hrefused s] at h; cases h
  rw [haccess s] at h
  rcases accessor_next _ _ s s' h with ⟨_, _, c, _, rfl⟩ | ⟨_, _, rfl⟩ | ⟨_, _, rfl⟩
  · cases hk : accessKindOf i with
    | read => exact .inr ⟨rfl, c, t, ht, rfl⟩
    | write => exact .inl rfl
  · exact .inl rfl
  · exact .inl rfl

/-- An MRC writes no cell. -/
theorem exec_cells_of_read {i : Instr} {s s' : State} (hk : accessKindOf i = .read) (h : exec i s = .next s') :
    s'.cells = s.cells := by
  rcases exec_cells h with hsame | ⟨_, _, hwrite, _⟩
  · exact hsame
  · rw [hk] at hwrite; cases hwrite

/-- An MCR writes no register. -/
theorem exec_gpr_of_write {i : Instr} {s s' : State} (hk : accessKindOf i = .write) (h : exec i s = .next s') :
    s'.gpr = s.gpr := by
  rcases exec_gpr h with hsame | ⟨hread, _⟩
  · exact hsame
  · rw [hk] at hread; cases hread

/-- No instruction writes a register that its field does not name. -/
theorem exec_gpr_other {i : Instr} {s s' : State} (h : exec i s = .next s') {u : Fin 15} (hu : regOf i.rt ≠ some u) :
    s'.gpr[u] = s.gpr[u] := by
  rcases exec_gpr h with hsame | ⟨_, c, t, ht, hgpr⟩
  · rw [hsame]
  · have hut : u ≠ t := fun e => hu (e ▸ ht)
    rw [hgpr]
    exact State.readReg_writeReg_other s t u _ hut

/-- No instruction writes a cell that is not selected. -/
theorem exec_cells_other {i : Instr} {s s' : State} (h : exec i s = .next s') {c : CellName}
    (hc : selectCell s.cfg s.ctx ≠ some c) : s'.cells.get c = s.cells.get c := by
  rcases exec_cells h with hsame | ⟨_, _, _, d, t, hd, _, hcells⟩
  · rw [hsame]
  · have hcd : c ≠ d := fun e => hc (e ▸ hd)
    rw [hcells]
    exact Bank.get_set_other _ d c _ hcd

/-- Settles O11: either row is a read, and the frame of exec holds of both. -/
theorem readAccessorFrame : Obligations.ReadAccessorFrame := by
  intro cond rt s s' h
  obtain ⟨i, hk, rfl, hexec⟩ : ∃ i, accessKindOf i = .read ∧ i.rt = rt ∧ exec i s = .next s' :=
    h.elim (fun ha32 => ⟨_, rfl, rfl, ha32⟩) (fun ht32 => ⟨_, rfl, rfl, ht32⟩)
  obtain ⟨hcfg, hctx, hmem, hifars, hschedule, _⟩ := exec_frame i s s' hexec
  have hcells : s'.cells = s.cells := exec_cells_of_read hk hexec
  exact ⟨fun _ hu => exec_gpr_other hexec hu, fun c => congrArg (·.get c) hcells,
    fun c => congrArg (·.get c) hifars, hctx, hcfg, hschedule, fun a => congrArg (memRead · a) hmem⟩

/-- Settles O12: either row is a write, and the frame of exec holds of both. -/
theorem writeAccessorFrame : Obligations.WriteAccessorFrame := by
  intro cond rt s s' h
  obtain ⟨i, hk, hexec⟩ : ∃ i, accessKindOf i = .write ∧ exec i s = .next s' :=
    h.elim (fun ha32 => ⟨_, rfl, ha32⟩) (fun ht32 => ⟨_, rfl, ht32⟩)
  obtain ⟨hcfg, hctx, hmem, hifars, hschedule, _⟩ := exec_frame i s s' hexec
  have hgpr : s'.gpr = s.gpr := exec_gpr_of_write hk hexec
  exact ⟨fun u => congrArg (·[u]) hgpr, fun _ hc => exec_cells_other hexec hc, fun c => congrArg (·.get c) hifars,
    hctx, hcfg, hschedule, fun a => congrArg (memRead · a) hmem⟩

/-! ## The stops of the access check (R82 to R86) -/

/-- `TV` of the pair member that EL2_A32 selects, by the member rather than by the kind of the access. -/
theorem vmBit_eq (k : AccessKind) (cfg : Config) (x : Context) :
    vmBit k cfg x = if cfg.el2A32 then vmTrapA32 k x else vmTrapA64 k x := by
  cases k <;> rfl

/-- Settles O19: only EL1 reads trap controls, and there the kind of EL2 selects the pair member. -/
theorem accessCheckIsTheStatedChain : Obligations.AccessCheckIsTheStatedChain := by
  intro k cfg x
  cases hel : x.el with
  | el0 | el2 | el3 => simp [accessCheck, hel]
  | el1 => cases ha32 : cfg.el2A32 <;> simp [accessCheck, hel, ha32, t5Bit, vmBit_eq, trapCode]

theorem accessCheck_el0 (k : AccessKind) (cfg : Config) {x : Context} (hel : x.el = .el0) :
    accessCheck k cfg x = some .undefined := by
  rw [accessCheck, hel]

/-- The trap to EL2 of the kind that EL2 uses (R83 to R85). -/
def trapToEL2 (cfg : Config) : Fault := if cfg.el2A32 then .trapHyp trapCode else .trapEL2A64 trapCode

/-- At EL1 with EL2 enabled either trap control is enough, and EL2 takes the trap as the kind it uses. -/
theorem accessCheck_trapped {k : AccessKind} {cfg : Config} {x : Context} (hel : x.el = .el1)
    (hen : x.el2Enabled = true) (hbit : t5Bit cfg x = 1#1 ∨ vmBit k cfg x = 1#1) :
    accessCheck k cfg x = some (trapToEL2 cfg) := by
  obtain ⟨f, hf⟩ : ∃ f, accessCheck k cfg x = some f :=
    Option.ne_none_iff_exists'.mp fun hnone =>
      have ⟨_, huntrapped⟩ := (accessCheck_none_iff k cfg x).mp hnone
      huntrapped hel ⟨hen, hbit⟩
  rcases accessCheck_some k cfg x f hf with ⟨_, hel0⟩ | ⟨rfl, _, _, ha32⟩ | ⟨rfl, _, _, ha32⟩
  · rw [hel] at hel0; cases hel0
  · rw [hf, trapToEL2, ha32]; rfl
  · rw [hf, trapToEL2, ha32]; rfl

section Stops
variable {i : Instr} {s : State} (hwf : i.wf = true) (hpass : s.ctx.conditionPassed = true)
include hwf hpass

/-- With the condition passed, a well-formed instruction stops where its check does not pass. -/
theorem exec_of_passed_fault {f : Fault} (hcheck : accessCheck (accessKindOf i) s.cfg s.ctx = some f) :
    exec i s = .fault f := by
  obtain ⟨transfer, hexec⟩ := exec_eq_accessor_of_wf i s hwf
  exact hexec.trans (accessor_of_passed_fault transfer hpass hcheck)

theorem exec_undefined (hel : s.ctx.el = .el0) : exec i s = .fault .undefined :=
  exec_of_passed_fault hwf hpass (accessCheck_el0 _ _ hel)

variable (hel : s.ctx.el = .el1) (hen : s.ctx.el2Enabled = true)
include hel hen

/-- A trap control of the pair member that EL2 uses is enough for the trap. -/
theorem exec_trapped (hbit : t5Bit s.cfg s.ctx = 1#1 ∨ vmBit (accessKindOf i) s.cfg s.ctx = 1#1) :
    exec i s = .fault (trapToEL2 s.cfg) :=
  exec_of_passed_fault hwf hpass (accessCheck_trapped hel hen hbit)

theorem exec_trapEL2A64 (ha64 : s.cfg.el2A32 = false)
    (hbit : s.ctx.hstrEL2T5 = 1#1 ∨ vmTrapA64 (accessKindOf i) s.ctx = 1#1) :
    exec i s = .fault (.trapEL2A64 0x03) := by
  have hstop := exec_trapped hwf hpass hel hen (by simpa [t5Bit, vmBit_eq, ha64] using hbit)
  rw [trapToEL2, ha64] at hstop
  exact hstop

theorem exec_trapHyp (ha32 : s.cfg.el2A32 = true)
    (hbit : s.ctx.hstrT5 = 1#1 ∨ vmTrapA32 (accessKindOf i) s.ctx = 1#1) : exec i s = .fault (.trapHyp 0x03) := by
  have hstop := exec_trapped hwf hpass hel hen (by simpa [t5Bit, vmBit_eq, ha32] using hbit)
  rw [trapToEL2, ha32] at hstop
  exact hstop

end Stops

/-- Settles O15: each of the four rows is well-formed, and the check at EL0 looks at nothing else. -/
theorem accessorsUndefinedAtEL0 : Obligations.AccessorsUndefinedAtEL0 := by
  intro cond rt s hcond hrt hpass hel
  exact ⟨exec_undefined (mrcA32_wf hcond hrt) hpass hel, exec_undefined (mcrA32_wf hcond hrt) hpass hel,
    exec_undefined (mrcT32_wf hrt) hpass hel, exec_undefined (mcrT32_wf hrt) hpass hel⟩

/-- Settles O16: T5 alone is enough for the trap, of either kind of EL2. -/
theorem t5TrapsReadsAndWrites : Obligations.T5TrapsReadsAndWrites := by
  intro i s hwf hpass hel hen
  exact ⟨fun ha64 ht5 => exec_trapEL2A64 hwf hpass hel hen ha64 (.inl ht5),
    fun ha32 ht5 => exec_trapHyp hwf hpass hel hen ha32 (.inl ht5)⟩

/-- A context that an access checks, selects, passes and formats as it does the current one makes no difference to the
instruction, the context itself apart. -/
theorem exec_of_context_alike {i : Instr} {s : State} {x : Context}
    (hcheck : accessCheck (accessKindOf i) s.cfg s.ctx = accessCheck (accessKindOf i) s.cfg x)
    (hcell : selectCell s.cfg s.ctx = selectCell s.cfg x) (hpass : s.ctx.conditionPassed = x.conditionPassed)
    (hfmt : s.ctx.fmt = x.fmt) : seenThrough (·.setCtx s.ctx) (exec i (s.setCtx x)) = exec i s := by
  have hunseen : Unseen (accessKindOf i) (·.setCtx s.ctx) (s.setCtx x) :=
    { authorise_eq := by simp only [authorise, State.setCtx_cfg, State.setCtx_ctx, hcheck, hcell]
      conditionPassed_eq := hpass
      draws_eq := rfl
      advance_eq := fun _ => rfl
      drawn_eq := fun _ _ => rfl
      transferOf_eq := fun t c _ => by
        cases accessKindOf i with
        | read => rfl
        | write => simp only [transferOf, State.setCtx_cfg, State.setCtx_ctx, hfmt]; rfl }
  exact (exec_of_unseen hunseen).symm

/-- Settles O17: TRVM is the read's `TV`, and nothing that a write looks at in the context is TRVM. -/
theorem tRVMTrapsReadsOnly : Obligations.TRVMTrapsReadsOnly := by
  intro cond rt s
  constructor
  · intro hcond hrt hpass hel hen
    have hwfA32 := mrcA32_wf hcond hrt
    have hwfT32 := mrcT32_wf hrt
    exact ⟨fun ha64 _ htv => ⟨exec_trapEL2A64 hwfA32 hpass hel hen ha64 (.inr htv),
        exec_trapEL2A64 hwfT32 hpass hel hen ha64 (.inr htv)⟩,
      fun ha32 _ htv => ⟨exec_trapHyp hwfA32 hpass hel hen ha32 (.inr htv),
        exec_trapHyp hwfT32 hpass hel hen ha32 (.inr htv)⟩⟩
  · intro b b'
    exact ⟨exec_of_context_alike rfl rfl rfl rfl, exec_of_context_alike rfl rfl rfl rfl⟩

/-- Settles O18: TVM is the write's `TV`, and nothing that a read looks at in the context is TVM. -/
theorem tVMTrapsWritesOnly : Obligations.TVMTrapsWritesOnly := by
  intro cond rt s
  constructor
  · intro hcond hrt hpass hel hen
    have hwfA32 := mcrA32_wf hcond hrt
    have hwfT32 := mcrT32_wf hrt
    exact ⟨fun ha64 _ htv => ⟨exec_trapEL2A64 hwfA32 hpass hel hen ha64 (.inr htv),
        exec_trapEL2A64 hwfT32 hpass hel hen ha64 (.inr htv)⟩,
      fun ha32 _ htv => ⟨exec_trapHyp hwfA32 hpass hel hen ha32 (.inr htv),
        exec_trapHyp hwfT32 hpass hel hen ha32 (.inr htv)⟩⟩
  · intro b b'
    exact ⟨exec_of_context_alike rfl rfl rfl rfl, exec_of_context_alike rfl rfl rfl rfl⟩

/-! ## The selected cell (R87) -/

theorem cellByNS_zero {x : Context} (h : x.scrNS = 0#1) : cellByNS x = .secure := if_pos h

theorem cellByNS_one {x : Context} (h : x.scrNS = 1#1) : cellByNS x = .nonsecure := by
  rw [cellByNS, h]; rfl

/-- The access check does not look at SCR.NS. -/
theorem accessCheck_scrNS (k : AccessKind) (cfg : Config) (x : Context) (b : BitVec 1) :
    accessCheck k cfg { x with scrNS := b } = accessCheck k cfg x := by
  cases k <;> rfl

section SelectCell
variable {cfg : Config} {x : Context}

theorem selectCell_el1_banked (hel : x.el = .el1) (hb : banked cfg = true) : selectCell cfg x = some (cellByNS x) := by
  simp [selectCell, hel, hb]

theorem selectCell_el2_banked (hel : x.el = .el2) (hb : banked cfg = true) : selectCell cfg x = some .nonsecure := by
  simp [selectCell, hel, hb]

theorem selectCell_el3 (hel : x.el = .el3) : selectCell cfg x = some (cellByNS x) := by
  rw [selectCell, hel]

end SelectCell

/-- Settles O20: by the level, banking and SCR.NS, row by row. -/
theorem selectedCellFollowsTheTable : Obligations.SelectedCellFollowsTheTable := by
  intro cfg x
  refine ⟨fun hel hb => selectCell_of_not_banked hb (.inl hel), fun hel hb hns => ?_, fun hel hb hns => ?_,
    fun hel hb => selectCell_of_not_banked hb (.inr hel), selectCell_el2_banked, fun hel hns => ?_, fun hel hns => ?_,
    fun k b => accessCheck_scrNS k cfg x b⟩
  · rw [selectCell_el1_banked hel hb, cellByNS_zero hns]
  · rw [selectCell_el1_banked hel hb, cellByNS_one hns]
  · rw [selectCell_el3 hel, cellByNS_zero hns]
  · rw [selectCell_el3 hel, cellByNS_one hns]

end Sys2Proof.Machine

/-! SUPPORT. Exceptions (60_exceptions.md): the codes of a cause and what they read back as, the hardware write of a
reported fault, and what Decode sees of a register value. -/

namespace Sys2Proof.Machine

/-! ## Codes and tables (R100 to R104) -/

/-- Row by row of R104: the table of R100 has the cause under its code. -/
theorem fsTable_of_fsCode {c : Cause} {fs : BitVec 5} (h : fsCode c = some fs) : fsTable fs = some c := by
  unfold fsCode at h
  split at h <;> cases h <;> rfl

/-- Row by row of R104: the table of R102 has the cause under its code. -/
theorem statusTable_of_statusCode {c : Cause} {st : BitVec 6} (h : statusCode c = some st) : statusTable st = some c := by
  unfold statusCode at h
  split at h <;> cases h <;> rfl

/-- Value by value of R100. -/
theorem fsCode_of_fsTable : ∀ fs : BitVec 5, ∀ c ∈ fsTable fs, fsCode c = some fs := by decide

/-- Value by value of R102. -/
theorem statusCode_of_statusTable : ∀ st : BitVec 6, ∀ c ∈ statusTable st, statusCode c = some st := by decide

/-- Settles O39: from left to right along the rows of R104, from right to left along the values of R100 and R102. -/
theorem encodersAgreeWithTheTables : Obligations.EncodersAgreeWithTheTables :=
  ⟨fun c fs => ⟨fsTable_of_fsCode, fsCode_of_fsTable fs c⟩,
   fun c st => ⟨statusTable_of_statusCode, statusCode_of_statusTable st c⟩⟩

section ReadBack
variable {cfg : Config} {c : Cause} {fs : BitVec 5} {st : BitVec 6}

theorem fsOf_eq_some_iff : fsOf cfg c = some fs ↔ causeAvailable cfg c = true ∧ fsCode c = some fs :=
  Option.ite_none_right_eq_some

theorem statusOf_eq_some_iff : statusOf cfg c = some st ↔ causeAvailable cfg c = true ∧ statusCode c = some st :=
  Option.ite_none_right_eq_some

theorem causeIn_of_available (h : causeAvailable cfg c = true) : causeIn cfg (some c) = some c :=
  Option.filter_some_pos h

/-- An FS code that the implementation reports reads back as its cause. -/
theorem causeIn_fsTable_of_fsOf (h : fsOf cfg c = some fs) : causeIn cfg (fsTable fs) = some c := by
  obtain ⟨havail, hcode⟩ := fsOf_eq_some_iff.mp h
  rw [fsTable_of_fsCode hcode, causeIn_of_available havail]

/-- A STATUS code that the implementation reports reads back as its cause. -/
theorem causeIn_statusTable_of_statusOf (h : statusOf cfg c = some st) : causeIn cfg (statusTable st) = some c := by
  obtain ⟨havail, hcode⟩ := statusOf_eq_some_iff.mp h
  rw [statusTable_of_statusCode hcode, causeIn_of_available havail]

end ReadBack

/-! ## The fields of a hardware-written value (R110 to R112) -/

section Written
variable {cfg : Config} {fmt : Fmt} {r : FaultReport} {v : Word}

theorem statusWord_of_fsOf {fs : BitVec 5} (hfmt : fmt = .short) (h : fsOf cfg r.cause = some fs) :
    statusWord cfg fmt r = some (packA fs (fnvBit r.cause r.fnvIn) (extBit cfg r.cause r.extIn)) := by
  simp [statusWord, hfmt, h]

theorem statusWord_of_statusOf {st : BitVec 6} (hfmt : fmt = .long) (h : statusOf cfg r.cause = some st) :
    statusWord cfg fmt r = some (packB st (fnvBit r.cause r.fnvIn) (extBit cfg r.cause r.extIn)) := by
  simp [statusWord, hfmt, h]

theorem statusWord_of_no_fsOf (hfmt : fmt = .short) (h : fsOf cfg r.cause = none) : statusWord cfg fmt r = none := by
  simp [statusWord, hfmt, h]

theorem statusWord_of_no_statusOf (hfmt : fmt = .long) (h : statusOf cfg r.cause = none) :
    statusWord cfg fmt r = none := by
  simp [statusWord, hfmt, h]

theorem fnvOf_statusWord (h : statusWord cfg fmt r = some v) : fnvOf v = fnvBit r.cause r.fnvIn := by
  rcases statusWord_some cfg fmt r v h with ⟨_, fs, _, rfl⟩ | ⟨_, st, _, rfl⟩
  · exact fnvOf_packA fs _ _
  · exact fnvOf_packB st _ _

/-- The FS that the hardware writes is a code of the reported cause (R110). -/
theorem fsOf_of_statusWord (h : statusWord cfg .short r = some v) : fsOf cfg r.cause = some (fsField v) := by
  rcases statusWord_some cfg .short r v h with ⟨_, fs, hfs, rfl⟩ | ⟨hfmt, _⟩
  · rw [fsField_packA, hfs]
  · cases hfmt

/-- The STATUS that the hardware writes is a code of the reported cause (R110). -/
theorem statusOf_of_statusWord (h : statusWord cfg .long r = some v) : statusOf cfg r.cause = some (statusField v) := by
  rcases statusWord_some cfg .long r v h with ⟨hfmt, _⟩ | ⟨_, st, hst, rfl⟩
  · cases hfmt
  · rw [statusField_packB, hst]

end Written

/-- Settles O30: FnV of a written value is `FnVbit`, in its two cases. -/
theorem hardwareWritesFnVForSyncExternalOnly : Obligations.HardwareWritesFnVForSyncExternalOnly := by
  intro cfg fmt r v h
  rw [fnvOf_statusWord h]
  exact ⟨fun hsync => if_pos hsync, fun hother => if_neg hother⟩

/-- The causes that R112 and D12 let ExT tell of. -/
theorem extApplies_iff (c : Cause) : extApplies c = true ↔
    c = .syncExternal ∨ (∃ n, c = .syncExternalWalk n) ∨ c = .syncParity ∨ (∃ n, c = .syncParityWalk n) := by
  cases c <;> simp [extApplies]

theorem extBit_of_classified {cfg : Config} (h : cfg.extClass = .classified) (c : Cause) (extIn : BitVec 1) :
    extBit cfg c extIn = if extApplies c then extIn else 0#1 := by
  rw [extBit, h]

/-- Settles O31: ExT of a written value is `ExTbit`, by the classification and then by the cause. -/
theorem hardwareWritesExTForAbortAndParityCauses : Obligations.HardwareWritesExTForAbortAndParityCauses := by
  intro cfg fmt r v h
  obtain ⟨_, _, hext⟩ := statusWord_clean h
  rw [hext]
  refine ⟨fun hcls => extBit_of_unclassified hcls _ _, fun hcls => ?_⟩
  rw [extBit_of_classified hcls]
  constructor
  · intro hcause
    exact if_pos ((extApplies_iff _).mpr hcause)
  · rintro ⟨hsync, hsyncWalk, hpar, hparWalk⟩
    have hno : ¬extApplies r.cause = true := by
      rw [extApplies_iff]
      rintro (he | ⟨n, he⟩ | he | ⟨n, he⟩)
      exacts [hsync he, hsyncWalk n he, hpar he, hparWalk n he]
    exact if_neg hno

/-! ## Reserved codes (R101, R103) -/

theorem fsTable_of_reserved : ∀ fs ∈ [0b00000#5, 0b00100#5, 0b01010#5, 0b10001#5, 0b10010#5, 0b10011#5, 0b10101#5,
    0b10110#5, 0b10111#5, 0b11000#5, 0b11010#5, 0b11011#5, 0b11101#5, 0b11111#5], fsTable fs = none := by
  decide

theorem statusTable_of_reserved : ∀ st : BitVec 6, st ∈ [0b000100#6, 0b001000#6, 0b001100#6, 0b100000#6] ∨
    (0b010001 ≤ st.toNat ∧ st.toNat ≤ 0b010100) ∨ (0b011001 ≤ st.toNat ∧ st.toNat ≤ 0b011100) ∨
    (0b100011 ≤ st.toNat ∧ st.toNat ≤ 0b101111) ∨ 0b110001 ≤ st.toNat → statusTable st = none := by
  decide

/-- The parity or ECC causes, whose codes the RAS Extension makes reserved. -/
def isParity : Cause → Bool
  | .syncParity => true
  | .syncParityWalk _ => true
  | _ => false

theorem causeAvailable_of_isParity {c : Cause} (cfg : Config) (h : isParity c = true) :
    causeAvailable cfg c = !cfg.haveRAS := by
  cases c with
  | syncParity | syncParityWalk n => rfl
  | _ => cases h

theorem isParity_of_fsTable : ∀ fs ∈ [0b11001#5, 0b11100#5, 0b11110#5], ∀ c ∈ fsTable fs, isParity c = true := by
  decide

theorem isParity_of_statusTable : ∀ st ∈ [0b011000#6, 0b011101#6, 0b011110#6, 0b011111#6], ∀ c ∈ statusTable st,
    isParity c = true := by
  decide

/-- With the RAS Extension no parity or ECC cause has a code to report. -/
theorem not_isParity_of_available {cfg : Config} {c : Cause} (hras : cfg.haveRAS = true)
    (havail : causeAvailable cfg c = true) : isParity c ≠ true := by
  intro hpar
  rw [causeAvailable_of_isParity cfg hpar, hras] at havail
  cases havail

section Reserved
variable {cfg : Config} {c : Cause} {fs : BitVec 5} {st : BitVec 6}

/-- No cause is reported under an FS value that R101 reserves, by itself or under the configuration. -/
theorem fsOf_not_reserved (h : fsOf cfg c = some fs) :
    fs ∉ [0b00000#5, 0b00100#5, 0b01010#5, 0b10001#5, 0b10010#5, 0b10011#5, 0b10101#5, 0b10110#5, 0b10111#5,
      0b11000#5, 0b11010#5, 0b11011#5, 0b11101#5, 0b11111#5] ∧
    (cfg.haveRAS = true → fs ∉ [0b11001#5, 0b11100#5, 0b11110#5]) ∧
    (cfg.haveLockdown = false → fs ≠ 0b10100#5) := by
  obtain ⟨havail, hcode⟩ := fsOf_eq_some_iff.mp h
  have htable := fsTable_of_fsCode hcode
  refine ⟨fun hmem => ?_, fun hras hmem => ?_, ?_⟩
  · rw [fsTable_of_reserved fs hmem] at htable
    cases htable
  · exact not_isParity_of_available hras havail (isParity_of_fsTable fs hmem c htable)
  · rintro hlock rfl
    obtain rfl : Cause.lockdown = c := Option.some.inj htable
    exact Bool.false_ne_true (hlock.symm.trans havail)

/-- No cause is reported under a STATUS value that R103 reserves, by itself or under the configuration. -/
theorem statusOf_not_reserved (h : statusOf cfg c = some st) :
    st ∉ [0b000100#6, 0b001000#6, 0b001100#6, 0b100000#6] ∧
    ¬(0b010001 ≤ st.toNat ∧ st.toNat ≤ 0b010100) ∧ ¬(0b011001 ≤ st.toNat ∧ st.toNat ≤ 0b011100) ∧
    ¬(0b100011 ≤ st.toNat ∧ st.toNat ≤ 0b101111) ∧ ¬(0b110001 ≤ st.toNat) ∧
    (cfg.haveRAS = true → st ∉ [0b011000#6, 0b011101#6, 0b011110#6, 0b011111#6]) := by
  obtain ⟨havail, hcode⟩ := statusOf_eq_some_iff.mp h
  have htable := statusTable_of_statusCode hcode
  have hnotNone : statusTable st ≠ none := fun hnone => by rw [hnone] at htable; cases htable
  have hunreserved := mt (statusTable_of_reserved st) hnotNone
  simp only [not_or] at hunreserved
  obtain ⟨hsingle, hrange1, hrange2, hrange3, hrange4⟩ := hunreserved
  exact ⟨hsingle, hrange1, hrange2, hrange3, hrange4,
    fun hras hmem => not_isParity_of_available hras havail (isParity_of_statusTable st hmem c htable)⟩

end Reserved

/-- Settles O34: the field of a written value is a code of the reported cause, and no such code is reserved. -/
theorem reservedStatusIsNeverWritten : Obligations.ReservedStatusIsNeverWritten := by
  intro cfg r v
  exact ⟨fun h => fsOf_not_reserved (fsOf_of_statusWord h), fun h => statusOf_not_reserved (statusOf_of_statusWord h)⟩

/-! ## Decode (R105) -/

section Decode
variable {cfg : Config} {fmt : Fmt} {v w : Word}

theorem layoutOf_eq_of_lpaeOf (h : lpaeOf v = lpaeOf w) : layoutOf v = layoutOf w := by
  rw [layoutOf, layoutOf, h]

/-- LPAE of a layout tells that layout. -/
theorem layoutOf_of_lpaeFor (h : lpaeOf v = lpaeFor fmt) : layoutOf v = fmt := by
  rw [layoutOf, h]
  cases fmt <;> rfl

theorem decodeStatus_of_short (h : layoutOf v = .short) : decodeStatus cfg v = causeIn cfg (fsTable (fsField v)) := by
  rw [decodeStatus, h]

theorem decodeStatus_of_long (h : layoutOf v = .long) :
    decodeStatus cfg v = causeIn cfg (statusTable (statusField v)) := by
  rw [decodeStatus, h]

/-- Decode names the reported cause. -/
theorem decodeStatus_statusWord {r : FaultReport} (h : statusWord cfg fmt r = some v)
    (hlayout : layoutOf v = fmt) : decodeStatus cfg v = some r.cause := by
  cases fmt with
  | short => rw [decodeStatus_of_short hlayout, causeIn_fsTable_of_fsOf (fsOf_of_statusWord h)]
  | long => rw [decodeStatus_of_long hlayout, causeIn_statusTable_of_statusOf (statusOf_of_statusWord h)]

/-- A field that a mask holds whole is the same in values that agree under the mask. -/
theorem extractLsb'_eq_of_and_eq {m : Word} (h : v &&& m = w &&& m) {start len : Nat}
    (hm : m.extractLsb' start len = BitVec.allOnes len) : v.extractLsb' start len = w.extractLsb' start len :=
  (extractLsb'_of_match h hm).trans (extractLsb'_of_match rfl hm).symm

theorem fnvOf_eq_of_fieldBits (h : v &&& fieldBits fmt = w &&& fieldBits fmt) : fnvOf v = fnvOf w :=
  extractLsb'_eq_of_and_eq h (by cases fmt <;> decide)

theorem extOf_eq_of_fieldBits (h : v &&& fieldBits fmt = w &&& fieldBits fmt) : extOf v = extOf w :=
  extractLsb'_eq_of_and_eq h (by cases fmt <;> decide)

theorem fsField_eq_of_fieldBits (h : v &&& fieldBits .short = w &&& fieldBits .short) : fsField v = fsField w := by
  have htop : v.extractLsb' 10 1 = w.extractLsb' 10 1 := extractLsb'_eq_of_and_eq h (by decide)
  have hlow : v.extractLsb' 0 4 = w.extractLsb' 0 4 := extractLsb'_eq_of_and_eq h (by decide)
  rw [fsField, fsField, htop, hlow]

theorem statusField_eq_of_fieldBits (h : v &&& fieldBits .long = w &&& fieldBits .long) :
    statusField v = statusField w :=
  extractLsb'_eq_of_and_eq h (by decide)

/-- The cause comes from the field bits of the one layout that both values are read in. -/
theorem decodeStatus_eq_of_fieldBits (hlayout : layoutOf v = layoutOf w)
    (h : v &&& fieldBits (layoutOf v) = w &&& fieldBits (layoutOf v)) : decodeStatus cfg v = decodeStatus cfg w := by
  cases hv : layoutOf v with
  | short =>
    rw [hv] at h hlayout
    rw [decodeStatus_of_short hv, decodeStatus_of_short hlayout.symm, fsField_eq_of_fieldBits h]
  | long =>
    rw [hv] at h hlayout
    rw [decodeStatus_of_long hv, decodeStatus_of_long hlayout.symm, statusField_eq_of_fieldBits h]

end Decode

/-- Settles O33: part by part of the reading. -/
theorem decodeInvertsTheHardwareWrite : Obligations.DecodeInvertsTheHardwareWrite := by
  intro cfg fmt r v h
  obtain ⟨_, hlpae, hext⟩ := statusWord_clean h
  have hlayout := layoutOf_of_lpaeFor hlpae
  rw [readStatus, hlayout, decodeStatus_statusWord h hlayout, fnvOf_statusWord h, hext]

/-- Settles O36: part by part of the reading. -/
theorem decodeIgnoresReservedBits : Obligations.DecodeIgnoresReservedBits := by
  intro cfg v w hlpae hfields
  have hlayout := layoutOf_eq_of_lpaeOf hlpae
  rw [readStatus, readStatus, decodeStatus_eq_of_fieldBits hlayout hfields, fnvOf_eq_of_fieldBits hfields,
    extOf_eq_of_fieldBits hfields, hlayout]

/-! ## The step that reports a fault (R110) -/

@[simp] theorem reportIfar_cfg (r : FaultReport) (s : State) : (reportIfar r s).cfg = s.cfg := by
  rcases reportIfar_cases r s with ⟨_, h⟩ | ⟨_, h⟩ <;> simp [h]

@[simp] theorem reportIfar_ctx (r : FaultReport) (s : State) : (reportIfar r s).ctx = s.ctx := by
  rcases reportIfar_cases r s with ⟨_, h⟩ | ⟨_, h⟩ <;> simp [h]

@[simp] theorem reportIfar_schedule (r : FaultReport) (s : State) : (reportIfar r s).schedule = s.schedule := by
  rcases reportIfar_cases r s with ⟨_, h⟩ | ⟨_, h⟩ <;> simp [h]

/-- The write of IFAR as one update: the cell's IFAR and the draw counter. -/
theorem reportIfar_eq (r : FaultReport) (s : State) : reportIfar r s =
    { s with
      ifars := s.ifars.set r.cell (if fnvBit r.cause r.fnvIn = 1#1 then Config.unknown32 s.draws else r.faultAddress)
      draws := if fnvBit r.cause r.fnvIn = 1#1 then s.draws + 1 else s.draws } := by
  unfold reportIfar
  split <;> rfl

section Report
variable {s : State} {r : FaultReport} {rest : List Turn}

/-- A report whose cause has a code writes cell and IFAR in the state with the turn used up. -/
theorem step_of_report {v : Word} (hs : s.schedule = .environment (.instructionFault r) :: rest)
    (hv : statusWord s.cfg s.ctx.fmt r = some v) :
    step s = .next (reportIfar r ((s.setSchedule rest).writeCell r.cell v)) := by
  rw [step_of_environment hs, environmentStep, reportInstructionFault, State.setSchedule_cfg, State.setSchedule_ctx, hv]

/-- A report whose cause has no code is refused. -/
theorem step_of_report_without_code (hs : s.schedule = .environment (.instructionFault r) :: rest)
    (hv : statusWord s.cfg s.ctx.fmt r = none) : step s = .refused (.noStatusCode r.cause s.ctx.fmt) := by
  rw [step_of_environment hs, environmentStep, reportInstructionFault, State.setSchedule_cfg, State.setSchedule_ctx, hv]

end Report

/-- Settles O28: one step for either layout's value, with the write of IFAR as one update. -/
theorem hardwareWriteReportsTheFault : Obligations.HardwareWriteReportsTheFault := by
  intro s r rest hs fnv after
  have hstep : ∀ v, statusWord s.cfg s.ctx.fmt r = some v → step s = .next (after v) := fun v hv => by
    rw [step_of_report hs hv, reportIfar_eq]
    rfl
  exact ⟨fun fs hfmt hfs => hstep _ (statusWord_of_fsOf hfmt hfs),
    fun st hfmt hst => hstep _ (statusWord_of_statusOf hfmt hst)⟩

/-- Settles O29: without a code in the current layout there is no value to write. -/
theorem causeWithoutCodeIsRefused : Obligations.CauseWithoutCodeIsRefused := by
  intro s r rest hs
  exact ⟨fun hfmt hno => hfmt ▸ step_of_report_without_code hs (statusWord_of_no_fsOf hfmt hno),
    fun hfmt hno => hfmt ▸ step_of_report_without_code hs (statusWord_of_no_statusOf hfmt hno)⟩

/-- Settles O35: the first report keeps the format and the configuration, on which the second one's value depends, and
both write one cell. -/
theorem secondFaultReplacesTheFirst : Obligations.SecondFaultReplacesTheFirst := by
  intro s r1 r2 rest v1 v2 hs hcell hv1 hv2
  have hstep1 := step_of_report hs hv1
  have hstep2 := step_of_report (r := r2) (rest := rest) (v := v2)
    (s := reportIfar r1 ((s.setSchedule (.environment (.instructionFault r2) :: rest)).writeCell r1.cell v1))
    (by simp) (by simpa using hv2)
  refine ⟨_, _, hstep1, hstep2, ?_, fun c hc => ?_⟩
  · simp
  · simp [hcell, Bank.get_set_other _ _ _ _ hc]

/-! ## Where no access stops (R127, R130, R147) -/

/-- Settles O24: the stops of a well-formed accessor belong to EL0 and EL1. -/
theorem accessorsCompleteAtEL2AndEL3 : Obligations.AccessorsCompleteAtEL2AndEL3 := by
  intro i s hwf hel
  obtain ⟨hne0, hne1⟩ : s.ctx.el ≠ .el0 ∧ s.ctx.el ≠ .el1 := by
    rcases hel with hel | hel <;> simp [hel]
  rcases accessorOutcomesAreTheFourStated i s hwf with hnext | ⟨_, hel0⟩ | ⟨_, hel1, _⟩ | ⟨_, hel1, _⟩
  · exact hnext
  · exact absurd hel0 hne0
  · exact absurd hel1 hne1
  · exact absurd hel1 hne1

end Sys2Proof.Machine

/-! SUPPORT. The reset step, field by field (70_reset_and_hazards.md R140, R141; 10_state.md R44). -/

namespace Sys2Proof.Machine

/-! ## What reset replaces and what it leaves (R140, log 23) -/

section Reset
variable (start : Context) (vector : Word) (s : State)

@[simp] theorem resetPE_single : (resetPE start vector s).cells.single = Config.unknown32 s.draws := rfl
@[simp] theorem resetPE_secure : (resetPE start vector s).cells.secure = Config.unknown32 (s.draws + 1) := rfl
@[simp] theorem resetPE_nonsecure : (resetPE start vector s).cells.nonsecure = Config.unknown32 (s.draws + 2) := rfl
@[simp] theorem resetPE_draws : (resetPE start vector s).draws = s.draws + 3 := rfl
@[simp] theorem resetPE_ctx : (resetPE start vector s).ctx = start := rfl
@[simp] theorem resetPE_pc : (resetPE start vector s).pc = vector := rfl
@[simp] theorem resetPE_cfg : (resetPE start vector s).cfg = s.cfg := rfl
@[simp] theorem resetPE_mem : (resetPE start vector s).mem = s.mem := rfl
@[simp] theorem resetPE_schedule : (resetPE start vector s).schedule = s.schedule := rfl

end Reset

/-- A turn that is a reset always goes on: the PE is reset in the state with the turn used up. -/
theorem step_of_reset {s : State} {start : Context} {vector : Word} {rest : List Turn}
    (hs : s.schedule = .environment (.reset start vector) :: rest) :
    step s = .next (resetPE start vector (s.setSchedule rest)) := by
  rw [step_of_environment hs, environmentStep]

/-- Settles O40: using up the turn changes neither the draw counter nor what reset leaves in place. -/
theorem resetStepDrawsEveryCell : Obligations.ResetStepDrawsEveryCell := by
  intro s start vector rest hs
  refine ⟨_, step_of_reset hs, ?_⟩
  simp

end Sys2Proof.Machine

/-! SUPPORT. Loading an instruction (log 18): the bytes of a word placed at pc are read back there, in the order they lie
in memory, and pc is a place where an accessor may stand. -/

namespace Sys2Proof.Machine

/-! ## Bytes written one after the other (log 7, log 20) -/

/-- The bytes after the first are those from the next address on. -/
theorem add_ofNat_succ (a : Word) (k : Nat) : a + BitVec.ofNat 32 (k + 1) = a + 1#32 + BitVec.ofNat 32 k := by
  rw [Nat.add_comm, BitVec.ofNat_add, ← BitVec.add_assoc]

/-- A read at an address outside the range written, the range taken modulo 2^32. -/
theorem memRead_memWriteList_outside {m : Memory} {a x : Word} {bytes : List Byte} (hm : Memory.wf m = true)
    (hx : ∀ k < bytes.length, x ≠ a + BitVec.ofNat 32 k) :
    memRead (memWriteList m a bytes) x.toNat = memRead m x.toNat := by
  induction bytes generalizing m a with
  | nil => rfl
  | cons b rest ih =>
    have hhead : x.toNat ≠ a.toNat := fun h => hx 0 (Nat.zero_lt_succ _) (by simpa using BitVec.eq_of_toNat_eq h)
    have htail : ∀ k < rest.length, x ≠ a + 1#32 + BitVec.ofNat 32 k := fun k hk =>
      add_ofNat_succ a k ▸ hx (k + 1) (Nat.succ_lt_succ hk)
    rw [memWriteList, ih (Memory.wf_memWrite m a b hm) htail, memRead_memWrite m 0 _ _ b hm, if_neg hhead]

/-- A read inside the range written: no two of at most 2^32 bytes in a row lie at one address. -/
theorem memRead_memWriteList {m : Memory} {a : Word} {bytes : List Byte} (hm : Memory.wf m = true)
    (hlen : bytes.length ≤ 2 ^ 32) {k : Nat} (hk : k < bytes.length) :
    memRead (memWriteList m a bytes) (a + BitVec.ofNat 32 k).toNat = some bytes[k] := by
  induction bytes generalizing m a k with
  | nil => cases hk
  | cons b rest ih =>
    have hm' : Memory.wf (memWrite m a.toNat b) = true := Memory.wf_memWrite m a b hm
    cases k with
    | zero =>
      have hother : ∀ j < rest.length, a ≠ a + 1#32 + BitVec.ofNat 32 j := by
        intro j hj
        rw [List.length_cons] at hlen
        bv_omega
      rw [BitVec.add_zero, memWriteList, memRead_memWriteList_outside hm' hother, memRead_memWrite m 0 _ _ b hm]
      exact if_pos rfl
    | succ n =>
      rw [add_ofNat_succ]
      exact ih hm' (Nat.le_of_succ_le hlen) (Nat.lt_of_succ_lt_succ hk)

/-! ## The word placed at pc (20_memory.md R52, R53) -/

/-- An accessor may stand at a multiple of 4 in both instruction sets. -/
theorem mayStandAt_of_multiple_of_four (iset : ISet) {pc : Word} (h : pc.toNat % 4 = 0) : mayStandAt iset pc = true := by
  cases iset with
  | a32 => exact beq_iff_eq.mpr h
  | t32 => exact beq_iff_eq.mpr (by omega)

/-- Clearing the two low bits leaves a multiple of 4. -/
theorem toNat_clearLowBits_mod_four (pc : Word) : (pc &&& 0xFFFFFFFC#32).toNat % 4 = 0 := by
  have hlow : (pc &&& 0xFFFFFFFC#32) &&& 3#32 = 0#32 := by
    rw [BitVec.and_assoc]
    simp
  have hnat := congrArg BitVec.toNat hlow
  rw [BitVec.toNat_and] at hnat
  rwa [show (3#32).toNat = 2 ^ 2 - 1 from rfl, Nat.and_two_pow_sub_one_eq_mod] at hnat

theorem mayStandAt_standingPc (iset : ISet) (pc : Word) : mayStandAt iset (standingPc iset pc) = true := by
  unfold standingPc
  split_ifs with hpc
  · exact hpc
  · exact mayStandAt_of_multiple_of_four iset (toNat_clearLowBits_mod_four pc)

/-- The four bytes of a word decode as the word does, in either byte order. -/
theorem decode_wordBytes (iset : ISet) (order : ByteOrder) (w : Word) :
    decode iset order (wordBytes iset order w) = (decodeWord iset w).map (·, []) := by
  simpa using decode_wordBytes_append iset order w []

/-- A placed word that decodes is what the next step runs. -/
theorem step_placeWord {s : State} {iset : ISet} {v : Word} {i : Instr} (hm : Memory.wf s.mem = true)
    (hdecode : decodeWord iset v = .ok i) : step (placeWord s iset v) = exec i (placeWord s iset v) := by
  obtain ⟨b0, b1, b2, b3, hbytes, _⟩ := bytesWord_wordBytes iset s.cfg.fetchByteOrder v
  have hmem : (placeWord s iset v).mem = memWriteList s.mem (placeWord s iset v).pc [b0, b1, b2, b3] := by
    rw [← hbytes]
    rfl
  have hread (k : Nat) (hk : k < 4) : memRead (placeWord s iset v).mem
      ((placeWord s iset v).pc + BitVec.ofNat 32 k).toNat = some [b0, b1, b2, b3][k] := by
    rw [hmem]
    exact memRead_memWriteList hm (by simp) hk
  have hread0 := hread 0 (by omega)
  rw [BitVec.add_zero] at hread0
  have hfetched : decode iset s.cfg.fetchByteOrder [b0, b1, b2, b3] = .ok (i, []) := by
    rw [← hbytes, decode_wordBytes, hdecode]
    rfl
  exact stepRunsDecodedInstruction (placeWord s iset v) b0 b1 b2 b3 i [] (.inl rfl) (mayStandAt_standingPc iset s.pc)
    hread0 (hread 1 (by omega)) (hread 2 (by omega)) (hread 3 (by omega)) hfetched

/-! ## The opcode table's words (log 18) -/

/-- The table lays its word out little-endian; what the word decodes to does not depend on that. -/
theorem decodeWord_of_decodeTableWord {nbits w : Nat} {i : Instr} (h : decodeTableWord nbits w = some i) :
    decodeWord (tableISet (tableWord nbits w)) (tableWord nbits w) = .ok i := by
  rw [decodeTableWord, decode_wordBytes] at h
  generalize decodeWord (tableISet (tableWord nbits w)) (tableWord nbits w) = answer at h ⊢
  cases answer with
  | ok j =>
    cases h
    rfl
  | error e => cases h

/-- Settles O7: a table word that decodes is a placed word that decodes, in the set the table reads it in. -/
theorem loadedTableWordIsTheNextInstruction : Obligations.LoadedTableWordIsTheNextInstruction :=
  fun _ _ _ hm h => step_placeWord hm (decodeWord_of_decodeTableWord h)

end Sys2Proof.Machine
